-- ==== Sys2Proof/Word.lean ====
section
/-! DEFINITION. Bytes and byte strings of fixed length (00_scope.md R10). -/

namespace Sys2Proof

/-- An 8-bit byte (R10, R50). -/
abbrev Byte := BitVec 8

/-- `Bytes(n)` of R10: a byte string of exactly `n` bytes, byte 0 first. -/
abbrev Bytes (n : Nat) := Vector Byte n

end Sys2Proof
end

