-- ==== Sys2Proof/Machine/ByteOrder.lean ====
section
/-! DEFINITION. Byte-string operations and the one byte order of the engine, big-endian (00_scope.md R10,
20_memory.md R55). -/

namespace Sys2Proof

/-- `be(s)` of R10: the sum over `i` of `s[i] * 256^(len(s)-1-i)`. -/
def be : List Byte → Nat
  | [] => 0
  | b :: s => b.toNat * 256 ^ s.length + be s

/-- The `n`-byte big-endian string of `v`, most significant byte first; for `n = 4` it is `BE32`, for `n = 16` it is
`BE128` (R10). -/
def beBytes : Nat → Nat → List Byte
  | 0, _ => []
  | n + 1, v => BitVec.ofNat 8 (v / 256 ^ n) :: beBytes n v

/-- `BE32` of a 32-bit value (R10). -/
def be32 (v : BitVec 32) : List Byte := beBytes 4 v.toNat

/-- `s[i .. j)` of R10. -/
def slice (s : List Byte) (i j : Nat) : List Byte := (s.drop i).take (j - i)

/-- `a xor b` of R10; where the strings differ in length the longer one is cut (the tail of 43_datapath.md R134). -/
def xorBytes (a b : List Byte) : List Byte := List.zipWith (· ^^^ ·) a b

/-- A byte string taken as one of exactly `n` bytes, if it is. -/
def bytesOfList? (n : Nat) (s : List Byte) : Option (Bytes n) :=
  if h : s.length = n then some ⟨s.toArray, by simpa using h⟩ else none

theorem length_beBytes (n v : Nat) : (beBytes n v).length = n := by
  induction n generalizing v with
  | zero => rfl
  | succ n ih => simp [beBytes, ih]

/-- `BE128` of R10, and the `n`-byte string in general, as a byte string of fixed length. -/
def beVec (n v : Nat) : Bytes n := ⟨(beBytes n v).toArray, by simp [length_beBytes]⟩

end Sys2Proof
end

