-- ==== Sys2Proof/Syntax.lean ====
section
/-! DEFINITION. The five commands (30_encoding.md R70), with the operands of the assembler syntax (R82). -/

namespace Sys2Proof

/-- One constructor per row of the opcode table. `rd` and `wr` are the reader and writer index, `seq` the sequence
number (R73). INIT, REKEY and DECFB take no sequence number: their descriptor's `SEQ` field is ignored (R73, log 10). -/
inductive Instr where
  | init  (rd wr : BitVec 32)
  | rekey (rd wr : BitVec 32)
  | decfb (rd wr : BitVec 32)
  | decvf (rd wr seq : BitVec 32)
  | enc   (rd wr seq : BitVec 32)
deriving DecidableEq, Repr

namespace Instr

/-- The reader index of a command (R71). -/
def rd : Instr → BitVec 32
  | .init rd _ | .rekey rd _ | .decfb rd _ | .decvf rd _ _ | .enc rd _ _ => rd

/-- The writer index of a command (R71). -/
def wr : Instr → BitVec 32
  | .init _ wr | .rekey _ wr | .decfb _ wr | .decvf _ wr _ | .enc _ wr _ => wr

/-- Whether the descriptor's `SEQ` field is an operand of the command (R73). -/
def takesSeq : Instr → Bool
  | .init _ _ | .rekey _ _ | .decfb _ _ => false
  | .decvf _ _ _ | .enc _ _ _ => true

end Instr

end Sys2Proof
end

