-- ==== Sys2Proof/Decode.lean ====
section
/-! DEFINITION. The command descriptor (30_encoding.md R71 to R76): decoder, encoder, and the 128-bit word of a
descriptor. -/

namespace Sys2Proof

/-- Why the decoder refuses a descriptor; each is one of the reasons for `IllegalCommand` (R75, R76). -/
inductive DecodeRefusal where
  /-- Not 16 bytes: no such descriptor exists (R71, R84). -/
  | wrongLength
  /-- `RSV` is not zero (R75, R76). -/
  | reservedBits
  /-- `OP` is 0x00 or 0x06..0xFF (R76). -/
  | reservedOpcode
deriving DecidableEq, Repr

/-- The four-byte big-endian field of a descriptor that starts at byte `i` (R71). -/
def field32 (d : List Byte) (i : Nat) : BitVec 32 := BitVec.ofNat 32 (be (slice d i (i + 4)))

/-- `SEQ`, bytes 4..7 (R71, R73). -/
def fieldSeq (d : List Byte) : BitVec 32 := field32 d 4

/-- `RD`, bytes 8..11 (R71, R73). -/
def fieldRd (d : List Byte) : BitVec 32 := field32 d 8

/-- `WR`, bytes 12..15 (R71, R73). -/
def fieldWr (d : List Byte) : BitVec 32 := field32 d 12

/-- The decoder (R71 to R76): total on any bytes; a descriptor of 16 bytes spells the command of its opcode when `RSV`
is zero. The window is looked at by the sequencer, not here (log 11). -/
def decode (d : List Byte) : Except DecodeRefusal Instr :=
  if d.length ≠ 16 then .error .wrongLength
  else if be (slice d 1 4) ≠ 0 then .error .reservedBits
  else match be (slice d 0 1) with
    | 1 => .ok (.init (fieldRd d) (fieldWr d))
    | 2 => .ok (.rekey (fieldRd d) (fieldWr d))
    | 3 => .ok (.decfb (fieldRd d) (fieldWr d))
    | 4 => .ok (.decvf (fieldRd d) (fieldWr d) (fieldSeq d))
    | 5 => .ok (.enc (fieldRd d) (fieldWr d) (fieldSeq d))
    | _ => .error .reservedOpcode

/-- A descriptor from its four field values, `RSV` zero (R71). -/
def descriptor (op : Byte) (seq rd wr : BitVec 32) : List Byte :=
  [op, 0x00#8, 0x00#8, 0x00#8] ++ be32 seq ++ be32 rd ++ be32 wr

/-- The encoder (R71, R72); for INIT, REKEY and DECFB it emits `SEQ = 0`, as the assembler does (R82). -/
def encode : Instr → List Byte
  | .init rd wr => descriptor 0x01#8 0#32 rd wr
  | .rekey rd wr => descriptor 0x02#8 0#32 rd wr
  | .decfb rd wr => descriptor 0x03#8 0#32 rd wr
  | .decvf rd wr seq => descriptor 0x04#8 seq rd wr
  | .enc rd wr seq => descriptor 0x05#8 seq rd wr

/-- The descriptor whose big-endian 128-bit word (R71: byte 0 is bits 127..120) has the low `nbits` bits of `w`, and 0
above them. DEDUCED, safe (log 9). -/
def descriptorOfWord (nbits w : Nat) : Bytes 16 := beVec 16 (w % 2 ^ nbits)

/-- The command the decoder reads from the 128-bit word `w`, numbered as the opcode table numbers it: ONE word, bit 127
the top bit of `OP`. A word longer than a descriptor is none (log 9). -/
def decodeTableWord (nbits w : Nat) : Option Instr :=
  if nbits ≤ 128 then (decode (descriptorOfWord nbits w).toList).toOption else none

end Sys2Proof
end

