-- ==== Sys2Proof/Config.lean ====
section
/-! DEFINITION. What an implementation of the engine fixes (00_scope.md R6, R7, R8) and the free values: every `opaque`
below has no body, so no proof can see what it is. -/

namespace Sys2Proof.Config

/-! The fixed sizes of R6, as types: none is configurable. The least padding length (`MINPAD` = 4) and the two size
checks (16 and 48 bytes) stand in the operations that use them, as in the spec's own steps. -/

/-- An encryption key, `EKEY` = 16 bytes (R6). -/
abbrev CipherKey := Bytes 16
/-- A MAC key, `MKEY` = 32 bytes (R6). -/
abbrev MacKey := Bytes 32
/-- A cipher block, `BLOCK` = 16 bytes (R6). -/
abbrev Block := Bytes 16
/-- A block counter, `CTRW` = 128 bits (R6), a 16-byte big-endian unsigned integer (10_state.md R23). -/
abbrev Counter := Bytes 16
/-- An initial IV, `IVLEN` = 16 bytes (R6). -/
abbrev Iv := Bytes 16

/-- The answer of a primitive (R8): a value, or `Fail(info)` with an uninterpreted byte string (92 D26). -/
inductive PrimResult (α : Type) where
  | ok (v : α)
  | fail (info : List Byte)
deriving DecidableEq, Repr, Inhabited

/-- The two trusted primitives (R8): total, deterministic functions of their arguments alone. The length of the tag is
not part of the type of `MAC`: the engine checks it itself (42_encrypt.md R121). -/
structure Primitives where
  /-- `E(key, counter)`: one keystream block. -/
  E : CipherKey → Counter → PrimResult Block
  /-- `MAC(key, message)`: a tag of any length. -/
  MAC : MacKey → List Byte → PrimResult (List Byte)
deriving Inhabited

/-- The primitives this engine is built with: open parameters of R8, U3, U4. DESIGN CHOICE, safe (log 2). -/
opaque primitives : Primitives

/-- `CAP - 1`, any number below `2^32`: the open parameter of R7, U5. DESIGN CHOICE, safe (log 1). -/
opaque capPred : Fin 4294967296

/-- `CAP` of R7 as the engine has it after reset: `0 < CAP` and `CAP <= 2^32`, nothing else is known of it. -/
def CAP : Nat := capPred.val + 1

/-- The six key and counter registers together (10_state.md R21 to R23). -/
structure KeyRegisters where
  kei : CipherKey
  keo : CipherKey
  kmi : MacKey
  kmo : MacKey
  ctri : Counter
  ctro : Counter
deriving DecidableEq, Repr, Inhabited

/-- What the six registers hold after a reset: the spec says "no value" (10_state.md R36, U2: any value, never read).
DESIGN CHOICE, unsafe (log 3). -/
opaque resetRegisters : KeyRegisters

/-- `NEWWR` for a natural `WR + 32` that 32 bits cannot hold: the spec gives the field 32 bits (30_encoding.md R79) and
states no value for that sum. DESIGN CHOICE, safe (log 13). -/
opaque newWrBeyond : Nat → BitVec 32

end Sys2Proof.Config
end

