-- ==== Sys2Proof/Machine/State.lean ====
section
/-! DEFINITION. The state of the engine (10_state.md R20), the buffer space it reaches (20_memory.md R50), what the host
does next, and the outcomes. -/

namespace Sys2Proof.Machine

/-- `PHASE` (10_state.md R25): `idle` = 0, `peeked` = 1. -/
inductive Phase where
  | idle
  | peeked
deriving DecidableEq, Repr

/-- The failures of a command (60_exceptions.md R151 to R159). Each one COMPLETES the command with its code (R150):
none of them stops the machine. -/
inductive Failure where
  /-- R151: INIT, REKEY; a key of the wrong length. -/
  | invalidKeySize
  /-- R152: every command; a window too small, not exactly one key block, or no room for the tag. -/
  | argumentError
  /-- R153: DECVF; the tags differ. -/
  | tagMismatch
  /-- R154: DECVF; the padding-length byte is below 4. -/
  | insufficientPadding
  /-- R155: DECVF; the padding reaches back past the content start. -/
  | excessPadding
  /-- R156: DECFB, DECVF, ENC; a primitive failed, `info` is passed on. -/
  | primitiveFailure (info : List Byte)
  /-- R157: ENC; the tag is not 32 bytes. -/
  | internalInvariant
  /-- R158: REKEY, DECFB, DECVF, ENC; `VALID = 0`. -/
  | notInitialized
  /-- R159: the decoder; the descriptor is not well-formed. -/
  | illegalCommand
deriving DecidableEq, Repr

/-- The result record of a command (30_encoding.md R79). -/
structure Result where
  status : BitVec 8
  newwr : BitVec 32
  payload : List Byte
  info : List Byte
deriving DecidableEq, Repr

/-- What the host does to the engine and its buffer space between commands. DESIGN CHOICE, unsafe (log 4). -/
inductive HostInput where
  /-- It issues a descriptor on the command port (30_encoding.md R70, R71). -/
  | command (d : Bytes 16)
  /-- It resets the engine (70_reset_and_hazards.md R180). -/
  | reset
  /-- It writes bytes of its buffer space from offset `off` on (20_memory.md R50, R60). -/
  | store (off : Nat) (bytes : List Byte)
deriving DecidableEq, Repr

/-- The buffer space as (offset, byte) pairs in one canonical form (`Memory.wf` in Ops.lean). -/
abbrev Memory := List Host.Cell

/-- The nine elements of 10_state.md R20, the buffer space with its size, and two fields of the model: what the host
does next and the record of the last command. -/
structure State where
  /-- `KEI` (R21). -/
  kei : Config.CipherKey
  /-- `KEO` (R21). -/
  keo : Config.CipherKey
  /-- `KMI` (R22). -/
  kmi : Config.MacKey
  /-- `KMO` (R22). -/
  kmo : Config.MacKey
  /-- `CTRI` (R23). -/
  ctri : Config.Counter
  /-- `CTRO` (R23). -/
  ctro : Config.Counter
  /-- `VALID` (R24). -/
  valid : Bool
  /-- `PHASE` (R25). -/
  phase : Phase
  /-- `STATUS` (R26). -/
  status : BitVec 8
  /-- `CAP` (00_scope.md R7): no step changes it (log 1). -/
  cap : Nat
  /-- The buffer space (20_memory.md R50). -/
  mem : Memory
  /-- The model's own: what the host does next, oldest first (log 4). -/
  inputs : List HostInput
  /-- The model's own: the result record of the last command since reset (R79, log 5). -/
  result : Option Result
deriving DecidableEq, Repr

/-- Why the machine stops with a fault. No command raises one: a command's failures are completions (R161). -/
inductive Fault where
  /-- Raised by a host store that names an offset outside the buffer space: no such byte exists (20_memory.md R50).
  Safe: the model stops where a host would have to go on (log 8). -/
  | hostStoreOutsideBuffer
deriving DecidableEq, Repr

/-- Why the machine gives an input no meaning. -/
inductive Refusal where
  /-- Raised by an arm of `exec` whose command has no meaning yet. Safe. No arm raises it in this model. -/
  | notModelled (mnemonic : String)
  /-- Raised by INIT and REKEY when they would replace the keys of an initialised engine while `PHASE = PEEKED`: the
  one behaviour the spec gives no meaning (40_session.md R93, 93 U1: "refuse"). Safe (log 12). -/
  | keyReplacementMidPacket
deriving DecidableEq, Repr

/-- The engine right after reset (10_state.md R36): `VALID = 0`, `PHASE = IDLE`, `STATUS = 0x00`, the six registers at
values nothing is known of (log 3), a buffer space of `CAP` bytes with nothing listed, and a host that does nothing. -/
def State.reset : State where
  kei := Config.resetRegisters.kei
  keo := Config.resetRegisters.keo
  kmi := Config.resetRegisters.kmi
  kmo := Config.resetRegisters.kmo
  ctri := Config.resetRegisters.ctri
  ctro := Config.resetRegisters.ctro
  valid := false
  phase := .idle
  status := 0x00#8
  cap := Config.CAP
  mem := []
  inputs := []
  result := none

end Sys2Proof.Machine
end

