-- ==== Sys2Proof/Machine/Datapath.lean ====
section
/-! DEFINITION. The shared datapath functions (43_datapath.md): counter, keystream scheduler, MAC messages, tag
comparator, padding stripper. -/

namespace Sys2Proof.Machine

open Sys2Proof.Config (PrimResult Counter Block)

/-! ## The counter state machine -/

/-- The loop of R130 over a byte string given LAST byte first: add one; stop at a non-zero byte; carry from a byte that
became zero; stop at the end. -/
def incLastFirst : List Byte → List Byte
  | [] => []
  | b :: rest => if b + 1#8 = 0#8 then 0#8 :: incLastFirst rest else (b + 1#8) :: rest

/-- `ctr_inc` of R130 on a byte string of any length. -/
def ctrIncBytes (c : List Byte) : List Byte := (incLastFirst c.reverse).reverse

theorem length_incLastFirst (c : List Byte) : (incLastFirst c).length = c.length := by
  induction c with
  | nil => rfl
  | cons b rest ih => simp only [incLastFirst]; split <;> simp [ih]

theorem length_ctrIncBytes (c : List Byte) : (ctrIncBytes c).length = c.length := by
  simp [ctrIncBytes, length_incLastFirst]

/-- `ctr_inc` of R130 on a counter register of `n` bytes (16 in the engine). -/
def ctrInc {n : Nat} (c : Bytes n) : Bytes n := ⟨(ctrIncBytes c.toList).toArray, by simp [length_ctrIncBytes]⟩

/-- `ctr_add(c, k)` of R132: `ctr_inc` applied `k` times. -/
def ctrAdd {n : Nat} (c : Bytes n) : Nat → Bytes n
  | 0 => c
  | k + 1 => ctrAdd (ctrInc c) k

/-! ## The keystream scheduler -/

/-- What `ctr_crypt` returns (R133): the whole output and the counter after it, or the failing primitive's value and the
counter after the blocks that did succeed. -/
inductive CryptResult where
  | done (out : List Byte) (c : Counter)
  | failed (info : List Byte) (c : Counter)
deriving DecidableEq, Repr

/-- The loop of R133 with `nb` full blocks still to do, then the tail of R134: the tail is XORed with the first bytes of
one more keystream block and the counter is not incremented for it. -/
def ctrCryptBlocks (E : Counter → PrimResult Block) :
    Nat → Counter → List Byte → CryptResult
  | 0, c, data =>
    if data = [] then .done [] c
    else match E c with
      | .fail info => .failed info c
      | .ok ks => .done (xorBytes data ks.toList) c
  | nb + 1, c, data =>
    match E c with
    | .fail info => .failed info c
    | .ok ks =>
      match ctrCryptBlocks E nb (ctrInc c) (data.drop 16) with
      | .failed info c' => .failed info c'
      | .done out c' => .done (xorBytes (data.take 16) ks.toList ++ out) c'

/-- `ctr_crypt(K, c, data)` of R133, with `E` already applied to the key. -/
def ctrCrypt (E : Counter → PrimResult Block) (c : Counter) (data : List Byte) :
    CryptResult :=
  ctrCryptBlocks E (data.length / 16) c data

/-! ## The MAC message assembler -/

/-- `mac_msg_out(seq, P)` of R136. -/
def macMsgOut (seq : BitVec 32) (P : List Byte) : List Byte := be32 seq ++ P

/-- `mac_msg_in(seq, L, P)` of R137: the length appears once (90 C1). -/
def macMsgIn (seq L : BitVec 32) (P : List Byte) : List Byte := be32 seq ++ be32 L ++ P.drop 4

/-! ## The tag comparator -/

/-- The OR over all positions of the XOR of two strings (R139, R140): no early exit. -/
def diffOr : List Byte → List Byte → Byte
  | x :: X, t :: T => (x ^^^ t) ||| diffOr X T
  | [], _ => 0#8
  | _ :: _, [] => 0#8

/-- `tag_eq(X, T)` of R139: equal lengths and no differing byte. -/
def tagEq (X T : List Byte) : Bool := X.length == T.length && diffOr X T == 0#8

/-! ## The padding stripper -/

/-- `strip_padding(P)` of R141. `end` is computed as an integer and may be negative (R142 (e)). -/
def stripPadding (P : List Byte) : Except Failure (List Byte) :=
  let padlen := (P.getD 4 0#8).toNat
  if padlen < 4 then .error .insufficientPadding
  else
    let contentEnd : Int := (P.length : Int) - (padlen : Int)
    if contentEnd < 5 then .error .excessPadding
    else .ok (slice P 5 contentEnd.toNat)

end Sys2Proof.Machine
end

