-- ==== Sys2Proof/Machine/Flags.lean ====
section
/-! DEFINITION. The status code and the `INFO` of a failure (60_exceptions.md R150, R156). The engine has no condition
codes, carry or overflow flag (10_state.md R31): `STATUS` is its only status-like state. -/

namespace Sys2Proof.Machine

/-- The code of a successful command (R150). -/
def statusOk : BitVec 8 := 0x00#8

/-- The code of a failure (R150). -/
def Failure.code : Failure → BitVec 8
  | .invalidKeySize => 0x01#8
  | .argumentError => 0x02#8
  | .tagMismatch => 0x03#8
  | .insufficientPadding => 0x04#8
  | .excessPadding => 0x05#8
  | .primitiveFailure _ => 0x06#8
  | .internalInvariant => 0x07#8
  | .notInitialized => 0x08#8
  | .illegalCommand => 0x09#8

/-- `INFO` of a failure (R79, R156): the primitive's own value, empty for every other failure (92 D26). -/
def Failure.info : Failure → List Byte
  | .primitiveFailure info => info
  | .invalidKeySize | .argumentError | .tagMismatch | .insufficientPadding | .excessPadding | .internalInvariant
  | .notInitialized | .illegalCommand => []

end Sys2Proof.Machine
end

