-- ==== Sys2Proof/WellFormed.lean ====
section
/-! DEFINITION. When the window of a command is well-formed (30_encoding.md R75: `RD <= WR` and `WR <= CAP`; the two
other conditions of R75, on `OP` and `RSV`, are the decoder's). -/

namespace Sys2Proof.Instr

/-- R75: the reader index does not pass the writer index. -/
def windowOrdered (i : Instr) : Bool := decide (i.rd.toNat ≤ i.wr.toNat)

/-- R75: the window ends inside a buffer space of `cap` bytes. -/
def windowInside (cap : Nat) (i : Instr) : Bool := decide (i.wr.toNat ≤ cap)

/-- The two window conditions of R75 together. -/
def wellFormed (cap : Nat) (i : Instr) : Bool := i.windowOrdered && i.windowInside cap

end Sys2Proof.Instr
end

