-- ==== Sys2Proof/Machine/Ops.lean ====
section
/-! DEFINITION. The named operations over the buffer space and the registers, and the one way a command completes: with
a result (30_encoding.md R85) or with a failure (60_exceptions.md R161). -/

namespace Sys2Proof.Machine

/-! ## The buffer space -/

/-- What a byte that nothing has written reads as. The spec gives no contents at power-on (10_state.md R36).
DESIGN CHOICE, unsafe (log 6). -/
def unlistedByte : Byte := 0x00#8

/-- The canonical form: offsets strictly rising, no entry equal to what an unlisted offset reads as. -/
def Memory.wf : Memory → Bool
  | [] => true
  | (k, v) :: m => v != unlistedByte && m.all (fun c => k < c.1) && Memory.wf m

/-- Every listed offset lies below `cap` (20_memory.md R50). -/
def Memory.below (cap : Nat) (m : Memory) : Bool := m.all (fun c => c.1 < cap)

/-- The byte at an offset. -/
def Memory.read : Memory → Nat → Byte
  | [], _ => unlistedByte
  | (k, v) :: m, a => if k = a then v else Memory.read m a

/-- The canonical list with one more entry in front, unless the entry says what an unlisted offset says. -/
def Memory.entry (a : Nat) (v : Byte) (m : Memory) : Memory := if v = unlistedByte then m else (a, v) :: m

/-- Stores one byte and keeps the canonical form. -/
def Memory.write : Memory → Nat → Byte → Memory
  | [], a, v => Memory.entry a v []
  | (k, w) :: m, a, v =>
    if a < k then Memory.entry a v ((k, w) :: m)
    else if a = k then Memory.entry a v m
    else (k, w) :: Memory.write m a v

/-- `MemRead(off, n)` (00_scope.md R12), lowest offset first. A command uses it only inside its window, which the
sequencer has checked against `CAP` (R12, log 17). -/
def Memory.readBytes (m : Memory) : Nat → Nat → List Byte
  | _, 0 => []
  | off, n + 1 => m.read off :: Memory.readBytes m (off + 1) n

/-- `MemWrite(off, n, v)` (R12), lowest offset first; `n` is the length of `v`. -/
def Memory.writeBytes (m : Memory) : Nat → List Byte → Memory
  | _, [] => m
  | off, b :: v => Memory.writeBytes (m.write off b) (off + 1) v

theorem Memory.length_readBytes (m : Memory) (off n : Nat) : (m.readBytes off n).length = n := by
  induction n generalizing off with
  | zero => rfl
  | succ n ih => simp [Memory.readBytes, ih]

/-- `MemRead` of a fixed number of bytes. -/
def Memory.readVec (m : Memory) (off n : Nat) : Bytes n :=
  ⟨(m.readBytes off n).toArray, by simp [Memory.length_readBytes]⟩

/-! ## Key material -/

/-- Key material whose lengths have been checked (30_encoding.md R77, 40_session.md R90). -/
structure SessionKeys where
  kei : Config.CipherKey
  keo : Config.CipherKey
  kmi : Config.MacKey
  kmo : Config.MacKey
  ivi : Config.Iv
  ivo : Config.Iv
deriving DecidableEq, Repr

/-- The seven `commit:` writes of REKEY (40_session.md R92), together (R94). -/
def State.replaceKeys (k : SessionKeys) (s : State) : State :=
  { s with kei := k.kei, keo := k.keo, kmi := k.kmi, kmo := k.kmo, ctri := k.ivi, ctro := k.ivo, phase := .idle }

/-- The eight `commit:` writes of INIT (40_session.md R91), together (R94). -/
def State.loadKeys (k : SessionKeys) (s : State) : State := { s.replaceKeys k with valid := true }

/-! ## Completion of a command -/

/-- How the rule of a command ends (00_scope.md R13): `result OK(NEWWR, PAYLOAD)` from a state with its `commit:` writes
done, or `raise X(info)` from a state with only the writes that stay. -/
inductive Completion where
  | done (s : State) (newwr : BitVec 32) (payload : List Byte)
  | raised (s : State) (f : Failure)
deriving DecidableEq, Repr

/-- Latches `STATUS` and hands the result record to the host (10_state.md R26, 30_encoding.md R79). -/
def State.post (r : Result) (s : State) : State := { s with status := r.status, result := some r }

/-- TAKING A FAILURE (60_exceptions.md R161, R162): the code goes to `STATUS` and into the result; `NEWWR` is the
command's `WR`, `PAYLOAD` is empty, `INFO` is the primitive's value (R79). Nothing is saved, no mode changes, control
goes nowhere; there is no return from it (R164). -/
def State.fail (wr : BitVec 32) (f : Failure) (s : State) : State := s.post ⟨f.code, wr, [], f.info⟩

/-- Success (R85): `STATUS <- 0x00` and the result `OK(NEWWR, PAYLOAD)`. -/
def State.succeed (newwr : BitVec 32) (payload : List Byte) (s : State) : State := s.post ⟨statusOk, newwr, payload, []⟩

/-- The last two lines of the sequencer (R85). -/
def Completion.finish (wr : BitVec 32) : Completion → State
  | .done s newwr payload => s.succeed newwr payload
  | .raised s f => s.fail wr f

/-- The sequencer's treatment of a decoded command (30_encoding.md R85): `IllegalCommand` for a window that is not
well-formed (R75, R159), before anything else; otherwise the rule of the command, then its completion. -/
def State.sequence (i : Instr) (rule : State → Completion) (s : State) : State :=
  Completion.finish i.wr (if i.wellFormed s.cap then rule s else .raised s .illegalCommand)

/-! ## Reset and the host's stores -/

/-- Reset (70_reset_and_hazards.md R180): `VALID <- 0`, `PHASE <- IDLE`, `STATUS <- 0x00`, the six registers lose their
values (log 3, log 7); the buffer space and the host's further inputs stay. -/
def State.hostReset (s : State) : State := { State.reset with cap := s.cap, mem := s.mem, inputs := s.inputs }

/-- The host writes bytes of its buffer space (20_memory.md R50); an offset outside it does not exist (log 8). -/
def State.hostStore (off : Nat) (bytes : List Byte) (s : State) : Host.Outcome State Fault Refusal :=
  if off + bytes.length ≤ s.cap then .next { s with mem := s.mem.writeBytes off bytes }
  else .fault .hostStoreOutsideBuffer

end Sys2Proof.Machine
end

