-- ==== Sys2Proof/Machine/Operands.lean ====
section
/-! DEFINITION. The operands of a command: the size of its window (30_encoding.md R73) and the key block of INIT and
REKEY (R77, R78, 40_session.md R90). -/

namespace Sys2Proof.Machine

/-- `N = WR - RD`, a natural number; the sequencer has checked `RD <= WR` (R73, 43_datapath.md R142 (b)). -/
def windowSize (rd wr : BitVec 32) : Nat := wr.toNat - rd.toNat

/-- What `parse_keys` returns (R78): four keys of whatever length the block says, two IVs of 16 bytes. -/
structure KeyMaterial where
  kei : List Byte
  keo : List Byte
  kmi : List Byte
  kmo : List Byte
  ivi : Config.Iv
  ivo : Config.Iv
deriving DecidableEq, Repr

/-- The key block that holds some key material (R77): the four length bytes, the four keys, the two IVs. -/
def KeyMaterial.block (k : KeyMaterial) : List Byte :=
  [BitVec.ofNat 8 k.kei.length, BitVec.ofNat 8 k.keo.length, BitVec.ofNat 8 k.kmi.length, BitVec.ofNat 8 k.kmo.length]
    ++ k.kei ++ k.keo ++ k.kmi ++ k.kmo ++ k.ivi.toList ++ k.ivo.toList

/-- `parse_keys(RD, N)` of R78. -/
def parseKeys (m : Memory) (rd N : Nat) : Except Failure KeyMaterial :=
  if N < 4 then .error .argumentError
  else
    let lei := (m.read rd).toNat
    let leo := (m.read (rd + 1)).toNat
    let lmi := (m.read (rd + 2)).toNat
    let lmo := (m.read (rd + 3)).toNat
    if N ≠ 4 + lei + leo + lmi + lmo + 32 then .error .argumentError
    else
      let o := rd + 4
      .ok { kei := m.readBytes o lei
            keo := m.readBytes (o + lei) leo
            kmi := m.readBytes (o + lei + leo) lmi
            kmo := m.readBytes (o + lei + leo + lmi) lmo
            ivi := m.readVec (o + lei + leo + lmi + lmo) 16
            ivo := m.readVec (o + lei + leo + lmi + lmo + 16) 16 }

/-- `validate_keys` of R90: all four lengths, or `InvalidKeySize`. -/
def validateKeys (k : KeyMaterial) : Except Failure SessionKeys :=
  match bytesOfList? 16 k.kei, bytesOfList? 16 k.keo, bytesOfList? 32 k.kmi, bytesOfList? 32 k.kmo with
  | some kei, some keo, some kmi, some kmo => .ok ⟨kei, keo, kmi, kmo, k.ivi, k.ivo⟩
  | _, _, _, _ => .error .invalidKeySize

/-- The key material a window holds: parsed, then validated; the shape is judged before the lengths (92 D25). -/
def windowKeys (rd wr : BitVec 32) (s : State) : Except Failure SessionKeys :=
  match parseKeys s.mem rd.toNat (windowSize rd wr) with
  | .error f => .error f
  | .ok k => validateKeys k

/-- INIT on an initialised engine, or REKEY, that has passed every check of its rule while `PHASE = PEEKED`: the
command without a meaning (40_session.md R93, 93 U1). The order of the tests is not observable (R93, log 12). -/
def replacesMidPacket (i : Instr) (s : State) : Bool :=
  s.valid && s.phase == .peeked && i.wellFormed s.cap && (windowKeys i.rd i.wr s).toBool

end Sys2Proof.Machine
end

