-- ==== Sys2Proof/Machine/Inbound.lean ====
section
/-! DEFINITION. The inbound commands DECFB and DECVF (41_decrypt.md), for any primitives (00_scope.md R8), then for the
engine's own. -/

namespace Sys2Proof.Machine

open Sys2Proof.Config (Primitives)

/-- The rule of DECFB (R101). -/
def decfbRule (p : Primitives) (rd wr : BitVec 32) (s : State) : Completion :=
  if s.valid = false then .raised s .notInitialized
  else if windowSize rd wr < 16 then .raised s .argumentError
  else match p.E s.kei s.ctri with
    | .fail info => .raised s (.primitiveFailure info)
    | .ok ks =>
      .done { s with mem := s.mem.writeBytes rd.toNat (xorBytes (s.mem.readBytes rd.toNat 16) ks.toList)
                     ctri := ctrInc s.ctri
                     phase := .peeked } wr []

/-- DECFB under some primitives. -/
def decfbUnder (p : Primitives) (rd wr : BitVec 32) (s : State) : Host.Outcome State Fault Refusal :=
  .next (s.sequence (.decfb rd wr) (decfbRule p rd wr))

/-- DECFB (R101). -/
def execDecfb (rd wr : BitVec 32) (s : State) : Host.Outcome State Fault Refusal :=
  decfbUnder Config.primitives rd wr s

/-- Steps 5 and 6 of DECVF (R104, R106, R107): verify the tag `T` over the decrypted frame `P`, then strip the padding.
`s` is the state with the writes that stay. -/
def decvfVerify (p : Primitives) (wr seq : BitVec 32) (P T : List Byte) (s : State) : Completion :=
  match p.MAC s.kmi (macMsgIn seq (BitVec.ofNat 32 (be (slice P 0 4))) P) with
  | .fail info => .raised s (.primitiveFailure info)
  | .ok X =>
    if tagEq X T = false then .raised s .tagMismatch
    else match stripPadding P with
      | .error f => .raised s f
      | .ok payload => .done s wr payload

/-- The rule of DECVF (R104). `PHASE <- IDLE` and the writes of `CTRI` stand outside `commit:`: they stay whatever
follows (R108). The extent is the window's, never the declared length's (R105). -/
def decvfRule (p : Primitives) (rd wr seq : BitVec 32) (s : State) : Completion :=
  let N := windowSize rd wr
  if s.valid = false then .raised s .notInitialized
  else if N < 48 then .raised s .argumentError
  else
    let B0 := s.mem.readBytes rd.toNat 16
    let C := s.mem.readBytes (rd.toNat + 16) (N - 48)
    let T := s.mem.readBytes (rd.toNat + N - 32) 32
    match ctrCrypt (p.E s.kei) s.ctri C with
    | .failed info c => .raised { s with phase := .idle, ctri := c } (.primitiveFailure info)
    | .done rest c => decvfVerify p wr seq (B0 ++ rest) T { s with phase := .idle, ctri := c }

/-- DECVF under some primitives. -/
def decvfUnder (p : Primitives) (rd wr seq : BitVec 32) (s : State) : Host.Outcome State Fault Refusal :=
  .next (s.sequence (.decvf rd wr seq) (decvfRule p rd wr seq))

/-- DECVF (R104). -/
def execDecvf (rd wr seq : BitVec 32) (s : State) : Host.Outcome State Fault Refusal :=
  decvfUnder Config.primitives rd wr seq s

end Sys2Proof.Machine
end

