-- ==== Sys2Proof/Machine/Outbound.lean ====
section
/-! DEFINITION. The outbound command ENC (42_encrypt.md), for any primitives (00_scope.md R8), then for the engine's
own. -/

namespace Sys2Proof.Machine

open Sys2Proof.Config (Primitives)

/-- `NEWWR = WR + 32` (30_encoding.md R79), a natural number (43_datapath.md R142 (g)) in a field of 32 bits; the one sum
that does not fit, `2^32`, is a free value (log 13). -/
def newWr (wr : BitVec 32) : BitVec 32 :=
  if wr.toNat + 32 < 4294967296 then BitVec.ofNat 32 (wr.toNat + 32) else Config.newWrBeyond (wr.toNat + 32)

/-- The rule of ENC (R121): tag and ciphertext are both computed before the first write (R122). -/
def encRule (p : Primitives) (rd wr seq : BitVec 32) (s : State) : Completion :=
  if s.valid = false then .raised s .notInitialized
  else if s.cap < wr.toNat + 32 then .raised s .argumentError
  else
    let P := s.mem.readBytes rd.toNat (windowSize rd wr)
    match p.MAC s.kmo (macMsgOut seq P) with
    | .fail info => .raised s (.primitiveFailure info)
    | .ok T =>
      if T.length ≠ 32 then .raised s .internalInvariant
      else match ctrCrypt (p.E s.keo) s.ctro P with
        | .failed info _ => .raised s (.primitiveFailure info)
        | .done C c =>
          .done { s with mem := (s.mem.writeBytes rd.toNat C).writeBytes wr.toNat T, ctro := c } (newWr wr) []

/-- ENC under some primitives. -/
def encUnder (p : Primitives) (rd wr seq : BitVec 32) (s : State) : Host.Outcome State Fault Refusal :=
  .next (s.sequence (.enc rd wr seq) (encRule p rd wr seq))

/-- ENC (R121). -/
def execEnc (rd wr seq : BitVec 32) (s : State) : Host.Outcome State Fault Refusal :=
  encUnder Config.primitives rd wr seq s

end Sys2Proof.Machine
end

