-- ==== Sys2Proof/Machine/Session.lean ====
section
/-! DEFINITION. The session-state commands INIT and REKEY (40_session.md). -/

namespace Sys2Proof.Machine

/-- The rule of INIT (R91), where it has a meaning. -/
def initRule (rd wr : BitVec 32) (s : State) : Completion :=
  match windowKeys rd wr s with
  | .error f => .raised s f
  | .ok k => .done (s.loadKeys k) wr []

/-- INIT (R91). -/
def execInit (rd wr : BitVec 32) (s : State) : Host.Outcome State Fault Refusal :=
  if replacesMidPacket (.init rd wr) s then .refused .keyReplacementMidPacket
  else .next (s.sequence (.init rd wr) (initRule rd wr))

/-- The rule of REKEY (R92), where it has a meaning. -/
def rekeyRule (rd wr : BitVec 32) (s : State) : Completion :=
  if s.valid = false then .raised s .notInitialized
  else match windowKeys rd wr s with
    | .error f => .raised s f
    | .ok k => .done (s.replaceKeys k) wr []

/-- REKEY (R92). -/
def execRekey (rd wr : BitVec 32) (s : State) : Host.Outcome State Fault Refusal :=
  if replacesMidPacket (.rekey rd wr) s then .refused .keyReplacementMidPacket
  else .next (s.sequence (.rekey rd wr) (rekeyRule rd wr))

end Sys2Proof.Machine
end

