-- ==== Sys2Proof/Machine/Dispatch.lean ====
section
/-! DEFINITION. One arm per command (30_encoding.md R70, R85). -/

namespace Sys2Proof.Machine

def exec (i : Instr) (s : State) : Host.Outcome State Fault Refusal :=
  match i with
  | .init rd wr => Sys2Proof.Machine.execInit rd wr s
  | .rekey rd wr => Sys2Proof.Machine.execRekey rd wr s
  | .decfb rd wr => Sys2Proof.Machine.execDecfb rd wr s
  | .decvf rd wr seq => Sys2Proof.Machine.execDecvf rd wr seq s
  | .enc rd wr seq => Sys2Proof.Machine.execEnc rd wr seq s

end Sys2Proof.Machine
end

