-- ==== Sys2Proof/Machine/Port.lean ====
section
/-! DEFINITION. What one input of the host does: a descriptor on the command port (30_encoding.md R85), a reset, a store
to the buffer space. -/

namespace Sys2Proof.Machine

/-- The sequencer's treatment of a descriptor (R85): `IllegalCommand` for one the decoder refuses (R75, R76, R159), with
the descriptor's own `WR` field as `NEWWR` (log 14); otherwise the command. -/
def runDescriptor (d : Bytes 16) (s : State) : Host.Outcome State Fault Refusal :=
  match decode d.toList with
  | .error _ => .next (s.fail (fieldWr d.toList) .illegalCommand)
  | .ok i => exec i s

/-- One input of the host. -/
def runInput (h : HostInput) (s : State) : Host.Outcome State Fault Refusal :=
  match h with
  | .command d => runDescriptor d s
  | .reset => .next s.hostReset
  | .store off bytes => s.hostStore off bytes

/-- The step: the host's oldest pending input is taken and done; with none pending the engine holds its state
(60_exceptions.md R170, 70_reset_and_hazards.md R180, log 4). -/
def stepInput (s : State) : Host.Outcome State Fault Refusal :=
  match s.inputs with
  | [] => .next s
  | h :: rest => runInput h { s with inputs := rest }

end Sys2Proof.Machine
end

