-- ==== Sys2Proof/Machine/Step.lean ====
section
/-! DEFINITION. One step of the machine, and the placing of one descriptor where the next step takes it. -/

namespace Sys2Proof.Machine

/-- One step: one input of the host, or nothing when there is none. -/
def step (s : State) : Host.Outcome State Fault Refusal := stepInput s

/-- `s` with the descriptor of the 128-bit word `w` as the host's next input: the engine fetches no instructions (R64),
it is handed descriptors (log 4). -/
def State.withFetchWord (s : State) (nbits w : Nat) : State :=
  { s with inputs := .command (descriptorOfWord nbits w) :: s.inputs }

end Sys2Proof.Machine
end

