-- ==== Sys2Proof/Safety.lean ====
section
/-! DEFINITION. The terms claims use: the invariant of the machine, and the host's duties that the engine does not check
(70_reset_and_hazards.md), for claims to take as premises. -/

namespace Sys2Proof.Machine

/-- What holds of the engine at every moment. `capPositive`, `capBounded`: 00_scope.md R7; `memCanonical`: log 6;
`memInside`: 20_memory.md R50; `peekedIsValid`: 41_decrypt.md R101 with 40_session.md R91; `statusProduced`,
`resultLatched`, `payloadOnSuccess`, `infoOnPrimitiveFailure`: 60_exceptions.md R150, 30_encoding.md R79. -/
structure Inv (s : State) : Prop where
  capPositive : 0 < s.cap
  capBounded : s.cap ≤ 2 ^ 32
  memCanonical : s.mem.wf = true
  memInside : s.mem.below s.cap = true
  peekedIsValid : s.phase = .peeked → s.valid = true
  statusProduced : s.status.toNat ≤ 9
  resultLatched : ∀ r, s.result = some r → r.status = s.status
  payloadOnSuccess : ∀ r, s.result = some r → r.payload ≠ [] → r.status = statusOk
  infoOnPrimitiveFailure : ∀ r, s.result = some r → r.info ≠ [] → r.status = 0x06#8

/-- The window `[RD, WR)` as a set of offsets (20_memory.md R51). -/
def InWindow (rd wr : BitVec 32) (a : Nat) : Prop := rd.toNat ≤ a ∧ a < wr.toNat

/-- The bytes a command may store to (20_memory.md R52): DECFB the first 16 of its window, ENC its window and the 32
bytes after it, the others none. -/
def InStores (i : Instr) (a : Nat) : Prop :=
  match i with
  | .decfb rd _ => rd.toNat ≤ a ∧ a < rd.toNat + 16
  | .enc rd wr _ => rd.toNat ≤ a ∧ a < wr.toNat + 32
  | .init _ _ | .rekey _ _ | .decvf _ _ _ => False

/-- Checked key material as the material of a key block (30_encoding.md R77). -/
def SessionKeys.material (k : SessionKeys) : KeyMaterial :=
  ⟨k.kei.toList, k.keo.toList, k.kmi.toList, k.kmo.toList, k.ivi, k.ivo⟩

/-- Material whose four lengths a length byte can say (30_encoding.md R77). -/
def KeyMaterial.Expressible (k : KeyMaterial) : Prop :=
  k.kei.length ≤ 255 ∧ k.keo.length ≤ 255 ∧ k.kmi.length ≤ 255 ∧ k.kmo.length ≤ 255

/-- Material whose four keys have their expected lengths (40_session.md R90). -/
def KeyMaterial.WellSized (k : KeyMaterial) : Prop :=
  k.kei.length = 16 ∧ k.keo.length = 16 ∧ k.kmi.length = 32 ∧ k.kmo.length = 32

/-- The window holds exactly the key block of `k` (30_encoding.md R77). -/
def State.Holds (s : State) (rd wr : BitVec 32) (k : KeyMaterial) : Prop :=
  s.mem.readBytes rd.toNat (windowSize rd wr) = k.block

/-- The six key and counter registers of a state replaced. -/
def State.withRegisters (r : Config.KeyRegisters) (s : State) : State :=
  { s with kei := r.kei, keo := r.keo, kmi := r.kmi, kmo := r.kmo, ctri := r.ctri, ctro := r.ctro }

/-- The outbound registers of a state replaced (60_exceptions.md R168). -/
def State.withOutbound (keo : Bytes 16) (kmo : Bytes 32) (ctro : Bytes 16) (s : State) : State :=
  { s with keo := keo, kmo := kmo, ctro := ctro }

/-- The inbound registers of a state replaced, `PHASE` among them (60_exceptions.md R168). -/
def State.withInbound (kei : Bytes 16) (kmi : Bytes 32) (ctri : Bytes 16) (phase : Phase) (s : State) : State :=
  { s with kei := kei, kmi := kmi, ctri := ctri, phase := phase }

/-- The input the next step takes is this command. -/
def State.Issues (s : State) (i : Instr) : Prop :=
  ∃ d rest, s.inputs = HostInput.command d :: rest ∧ decode d.toList = .ok i

/-- A command run under some primitives (00_scope.md R8); `exec` is the case of the engine's own. A claim about every
`p` is a claim about the engine, and its clauses on what the primitives answer can be met by a concrete `p`. -/
def execUnder (p : Config.Primitives) : Instr → State → Host.Outcome State Fault Refusal
  | .init rd wr, s => execInit rd wr s
  | .rekey rd wr, s => execRekey rd wr s
  | .decfb rd wr, s => decfbUnder p rd wr s
  | .decvf rd wr seq, s => decvfUnder p rd wr seq s
  | .enc rd wr seq, s => encUnder p rd wr seq s

/-! ## Duties of the host -/

/-- R189: between packets, where keys may be replaced. -/
def AtPacketBoundary (s : State) : Prop := s.phase = .idle

/-- R182: what `a` sends, `b` receives: keys and counters agree crosswise in that direction. -/
def Crosswise (a b : State) : Prop := a.keo = b.kei ∧ a.kmo = b.kmi ∧ a.ctro = b.ctri

/-- R193: the window of an inbound command and the stores of an ENC share no byte. -/
def WindowsApart (rdi wri rde wre : BitVec 32) : Prop :=
  ∀ a, InWindow rdi wri a → ¬ (rde.toNat ≤ a ∧ a < wre.toNat + 32)

/-- R187: a frame is a multiple of 16 bytes. -/
def BlockMultiple (rd wr : BitVec 32) : Prop := windowSize rd wr % 16 = 0

end Sys2Proof.Machine
end

