-- ==== Sys2Proof/Certificates/Slice0/Obligations.lean ====
section
/-! DEFINITION. What the model is claimed to satisfy: one definition per statement, for the provers. -/

open Sys2Proof Sys2Proof.Machine
open Sys2Proof.Config (Primitives PrimResult KeyRegisters)

/-! ## Descriptors -/

/-- Descriptors written out from 30_encoding.md R71, R72, R82 decode to the commands they spell. -/
def Obligations.WrittenDescriptorsDecode : Prop :=
  decode [0x01#8, 0, 0, 0, 0, 0, 0, 0, 0, 0, 0, 0, 0, 0, 0, 0x84#8] = .ok (.init 0#32 132#32) ∧
  decode [0x02#8, 0, 0, 0, 0, 0, 0, 0, 0, 0, 0x04#8, 0, 0, 0, 0x04#8, 0x83#8] = .ok (.rekey 0x400#32 0x483#32) ∧
  decode [0x03#8, 0, 0, 0, 0xDE#8, 0xAD#8, 0xBE#8, 0xEF#8, 0, 0, 0x02#8, 0, 0, 0, 0x02#8, 0x10#8]
    = .ok (.decfb 0x200#32 0x210#32) ∧
  decode [0x04#8, 0, 0, 0, 0, 0, 0, 0x03#8, 0, 0, 0x02#8, 0, 0, 0, 0x02#8, 0x40#8]
    = .ok (.decvf 0x200#32 0x240#32 3#32) ∧
  decode [0x05#8, 0, 0, 0, 0, 0, 0, 0x07#8, 0, 0, 0, 0, 0, 0, 0, 0x10#8] = .ok (.enc 0#32 16#32 7#32)

/-- Every command, with every operand value, is what its own descriptor decodes to. -/
def Obligations.EncodedCommandDecodesToItself : Prop :=
  ∀ i : Instr, (encode i).length = 16 ∧ decode (encode i) = .ok i

/-- A descriptor that decodes is the encoding of its command, but for a `SEQ` field that the command ignores. -/
def Obligations.DecodedDescriptorIsItsEncoding : Prop :=
  ∀ (d : List Byte) (i : Instr), decode d = .ok i →
    encode i = slice d 0 4 ++ (if i.takesSeq then slice d 4 8 else [0#8, 0#8, 0#8, 0#8]) ++ slice d 8 16

/-- R72: a descriptor, read as a big-endian 128-bit word, spells the command of a row exactly when the row's mask and
match say so; its operands are the bit fields of R71. -/
def Obligations.DecoderFollowsOpcodeTable : Prop :=
  ∀ w : BitVec 128,
    let d := beBytes 16 w.toNat
    let spells := fun m : BitVec 128 => w &&& 0xFFFFFFFF000000000000000000000000#128 = m
    let seq := w.extractLsb' 64 32
    let rd := w.extractLsb' 32 32
    let wr := w.extractLsb' 0 32
    (spells 0x01000000000000000000000000000000#128 ↔ decode d = .ok (.init rd wr)) ∧
    (spells 0x02000000000000000000000000000000#128 ↔ decode d = .ok (.rekey rd wr)) ∧
    (spells 0x03000000000000000000000000000000#128 ↔ decode d = .ok (.decfb rd wr)) ∧
    (spells 0x04000000000000000000000000000000#128 ↔ decode d = .ok (.decvf rd wr seq)) ∧
    (spells 0x05000000000000000000000000000000#128 ↔ decode d = .ok (.enc rd wr seq))

/-- The `SEQ` field of INIT, REKEY and DECFB has no effect on what is decoded. -/
def Obligations.IgnoredSequenceFieldHasNoEffect : Prop :=
  ∀ d d' : List Byte, d.length = 16 → d'.length = 16 → slice d 0 4 = slice d' 0 4 → slice d 8 16 = slice d' 8 16 →
    1 ≤ be (slice d 0 1) → be (slice d 0 1) ≤ 3 → decode d = decode d'

/-- R159: a descriptor that is not well-formed ends with `IllegalCommand`; nothing changes but `STATUS` (and the result
record, and the input taken), whether the engine is initialised or not. -/
def Obligations.MalformedDescriptorIsIllegalCommand : Prop :=
  ∀ (s : State) (d : Bytes 16) (rest : List HostInput), s.inputs = .command d :: rest →
    ¬ ((1 ≤ be (slice d.toList 0 1) ∧ be (slice d.toList 0 1) ≤ 5) ∧ be (slice d.toList 1 4) = 0 ∧
        be (slice d.toList 8 12) ≤ be (slice d.toList 12 16) ∧ be (slice d.toList 12 16) ≤ s.cap) →
    ∃ nw, step s = .next { s with inputs := rest, status := 0x09#8, result := some ⟨0x09#8, nw, [], []⟩ }

/-- A decoded command whose window is out of order or ends outside the buffer space is `IllegalCommand`. -/
def Obligations.MalformedWindowIsIllegalCommand : Prop :=
  ∀ (i : Instr) (s : State), (i.wr.toNat < i.rd.toNat ∨ s.cap < i.wr.toNat) →
    exec i s = .next { s with status := 0x09#8, result := some ⟨0x09#8, i.wr, [], []⟩ }

/-! ## Steps -/

/-- A step whose next input is a descriptor that decodes runs that command on the state without the input. -/
def Obligations.StepRunsTheDecodedCommand : Prop :=
  ∀ (s : State) (d : Bytes 16) (rest : List HostInput) (i : Instr), s.inputs = .command d :: rest →
    decode d.toList = .ok i → step s = exec i { s with inputs := rest }

/-- With nothing pending the engine holds its state (the model's reading of "idles", log 4). -/
def Obligations.IdleEngineHoldsItsState : Prop := ∀ s : State, s.inputs = [] → step s = .next s

/-- Reset makes the engine uninitialised and leaves the buffer space alone. That a reset is an input of the step is the
model's choice (log 4, log 7). -/
def Obligations.ResetDropsTheSession : Prop :=
  ∀ (s : State) (rest : List HostInput), s.inputs = .reset :: rest →
    ∃ t, step s = .next t ∧ t.valid = false ∧ t.phase = .idle ∧ t.status = 0x00#8 ∧ t.mem = s.mem ∧ t.cap = s.cap ∧
      t.inputs = rest

/-- The reset values that the spec gives. -/
def Obligations.ResetStateIsUninitialised : Prop :=
  State.reset.valid = false ∧ State.reset.phase = .idle ∧ State.reset.status = 0x00#8

/-- A host store inside the buffer space writes exactly its bytes; one that leaves it is a fault (the model's choice,
log 8). -/
def Obligations.HostStoreWritesItsBytes : Prop :=
  ∀ (s : State) (off : Nat) (bytes : List Byte) (rest : List HostInput), s.mem.wf = true →
    s.inputs = .store off bytes :: rest →
    (off + bytes.length ≤ s.cap → ∃ m, step s = .next { s with inputs := rest, mem := m } ∧
      (∀ (j : Nat) (h : j < bytes.length), m.read (off + j) = bytes[j]) ∧
      (∀ a, (a < off ∨ off + bytes.length ≤ a) → m.read a = s.mem.read a)) ∧
    (s.cap < off + bytes.length → step s = .fault .hostStoreOutsideBuffer)

/-- `exec` is the command under the engine's own primitives: what is said of every `p` is said of the engine. -/
def Obligations.ExecUsesTheEnginesPrimitives : Prop :=
  ∀ (i : Instr) (s : State), exec i s = execUnder Config.primitives i s

/-! ## INIT and REKEY -/

/-- INIT, given a well-sized key block, loads all six registers at once and changes no buffer byte. -/
def Obligations.InitLoadsTheKeyBlock : Prop :=
  ∀ (rd wr : BitVec 32) (s : State) (k : SessionKeys), rd.toNat ≤ wr.toNat → wr.toNat ≤ s.cap →
    s.Holds rd wr k.material → ¬ (s.valid = true ∧ s.phase = .peeked) →
    exec (.init rd wr) s = .next { s with
      kei := k.kei, keo := k.keo, kmi := k.kmi, kmo := k.kmo, ctri := k.ivi, ctro := k.ivo, valid := true
      phase := .idle, status := 0x00#8, result := some ⟨0x00#8, wr, [], []⟩ }

/-- REKEY, at a packet boundary of an initialised engine and given a well-sized key block, replaces all six registers
at once and changes no buffer byte. -/
def Obligations.RekeyReplacesTheKeys : Prop :=
  ∀ (rd wr : BitVec 32) (s : State) (k : SessionKeys), rd.toNat ≤ wr.toNat → wr.toNat ≤ s.cap →
    s.Holds rd wr k.material → s.valid = true → AtPacketBoundary s →
    exec (.rekey rd wr) s = .next { s with
      kei := k.kei, keo := k.keo, kmi := k.kmi, kmo := k.kmo, ctri := k.ivi, ctro := k.ivo
      phase := .idle, status := 0x00#8, result := some ⟨0x00#8, wr, [], []⟩ }

/-- R151: a key block with any key of the wrong length is `InvalidKeySize`, for INIT and for REKEY, and nothing is
loaded. On an initialised engine with `PHASE = PEEKED` R93 also lets a model refuse at once: that the failure is
reported there too is the model's choice (log 12). -/
def Obligations.WrongKeyLengthIsInvalidKeySize : Prop :=
  ∀ (rd wr : BitVec 32) (s : State) (k : KeyMaterial), rd.toNat ≤ wr.toNat → wr.toNat ≤ s.cap →
    k.Expressible → s.Holds rd wr k → ¬ k.WellSized →
    exec (.init rd wr) s = .next { s with status := 0x01#8, result := some ⟨0x01#8, wr, [], []⟩ } ∧
    (s.valid = true →
      exec (.rekey rd wr) s = .next { s with status := 0x01#8, result := some ⟨0x01#8, wr, [], []⟩ })

/-- R152: where each command raises `ArgumentError`; nothing but `STATUS` and the result record changes. For INIT and
REKEY on an initialised engine with `PHASE = PEEKED` R93 also lets a model refuse at once: that the failure is reported
there too is the model's choice (log 12). -/
def Obligations.TooSmallWindowIsArgumentError : Prop :=
  ∀ (rd wr seq : BitVec 32) (s : State), rd.toNat ≤ wr.toNat → wr.toNat ≤ s.cap →
    let argumentError : Host.Outcome State Fault Refusal :=
      .next { s with status := 0x02#8, result := some ⟨0x02#8, wr, [], []⟩ }
    ((¬ ∃ k : KeyMaterial, k.Expressible ∧ s.Holds rd wr k) → exec (.init rd wr) s = argumentError) ∧
    (s.valid = true → (¬ ∃ k : KeyMaterial, k.Expressible ∧ s.Holds rd wr k) →
      exec (.rekey rd wr) s = argumentError) ∧
    (s.valid = true → windowSize rd wr < 16 → exec (.decfb rd wr) s = argumentError) ∧
    (s.valid = true → windowSize rd wr < 48 → exec (.decvf rd wr seq) s = argumentError) ∧
    (s.valid = true → s.cap < wr.toNat + 32 → exec (.enc rd wr seq) s = argumentError)

/-- R158: before the first INIT every other command with a well-formed descriptor is `NotInitialized`; nothing but
`STATUS` and the result record changes. -/
def Obligations.UninitialisedEngineAnswersNotInitialized : Prop :=
  ∀ (rd wr seq : BitVec 32) (s : State), rd.toNat ≤ wr.toNat → wr.toNat ≤ s.cap → s.valid = false →
    let notInitialized : Host.Outcome State Fault Refusal :=
      .next { s with status := 0x08#8, result := some ⟨0x08#8, wr, [], []⟩ }
    exec (.rekey rd wr) s = notInitialized ∧ exec (.decfb rd wr) s = notInitialized ∧
    exec (.decvf rd wr seq) s = notInitialized ∧ exec (.enc rd wr seq) s = notInitialized

/-- Replacing the keys of an initialised engine between a DECFB and its DECVF has no meaning. -/
def Obligations.MidPacketKeyReplacementIsRefused : Prop :=
  ∀ (rd wr : BitVec 32) (s : State) (k : SessionKeys), rd.toNat ≤ wr.toNat → wr.toNat ≤ s.cap →
    s.Holds rd wr k.material → s.valid = true → s.phase = .peeked →
    exec (.init rd wr) s = .refused .keyReplacementMidPacket ∧
    exec (.rekey rd wr) s = .refused .keyReplacementMidPacket

/-- INIT on an initialised engine is REKEY, mid-packet too, where both report an earlier failure before they refuse (the
model's choice, log 12). -/
def Obligations.InitOnInitialisedEngineIsRekey : Prop :=
  ∀ (rd wr : BitVec 32) (s : State), s.valid = true → exec (.init rd wr) s = exec (.rekey rd wr) s

/-! ## DECFB, DECVF, ENC -/

/-- DECFB on an initialised engine and a window of at least one block completes: with the first block XORed in place
with `E(KEI, CTRI)`, the counter advanced by one and `PHASE = PEEKED`, or, if `E` fails, with nothing but the failure.
The engine's own command is the case `p = Config.primitives`. -/
def Obligations.DecfbDecryptsTheFirstBlock : Prop :=
  ∀ (p : Primitives) (rd wr : BitVec 32) (s : State), rd.toNat ≤ wr.toNat → wr.toNat ≤ s.cap → s.mem.wf = true →
    s.valid = true → 16 ≤ windowSize rd wr →
    ∃ t, execUnder p (.decfb rd wr) s = .next t ∧ (p = Config.primitives → exec (.decfb rd wr) s = .next t) ∧
      (∀ ks, p.E s.kei s.ctri = .ok ks →
        t = { s with mem := t.mem, ctri := ctrInc s.ctri, phase := .peeked, status := 0x00#8
                     result := some ⟨0x00#8, wr, [], []⟩ } ∧
        (∀ (j : Nat) (h : j < 16), t.mem.read (rd.toNat + j) = s.mem.read (rd.toNat + j) ^^^ ks[j]) ∧
        (∀ a, (a < rd.toNat ∨ rd.toNat + 16 ≤ a) → t.mem.read a = s.mem.read a)) ∧
      (∀ info, p.E s.kei s.ctri = .fail info →
        t = { s with status := 0x06#8, result := some ⟨0x06#8, wr, [], info⟩ })

/-- DECVF on an initialised engine and a window of at least a block and a tag completes: `PHASE = IDLE`, `CTRI` advanced
by the blocks decrypted, no other register and no buffer byte changed, and the outcome that the tag and the
padding-length byte decide. The engine's own command is the case `p = Config.primitives`. -/
def Obligations.DecvfVerifiesAndStrips : Prop :=
  ∀ (p : Primitives) (rd wr seq : BitVec 32) (s : State), rd.toNat ≤ wr.toNat → wr.toNat ≤ s.cap → s.valid = true →
    48 ≤ windowSize rd wr →
    let N := windowSize rd wr
    let B0 := s.mem.readBytes rd.toNat 16
    let C := s.mem.readBytes (rd.toNat + 16) (N - 48)
    let T := s.mem.readBytes (rd.toNat + N - 32) 32
    let padlen := (s.mem.read (rd.toNat + 4)).toNat
    ∃ t, execUnder p (.decvf rd wr seq) s = .next t ∧ (p = Config.primitives → exec (.decvf rd wr seq) s = .next t) ∧
      t = { s with phase := .idle, ctri := t.ctri, status := t.status, result := t.result } ∧
      (∀ info c, ctrCrypt (p.E s.kei) s.ctri C = .failed info c →
        t.ctri = c ∧ t.status = 0x06#8 ∧ t.result = some ⟨0x06#8, wr, [], info⟩) ∧
      (∀ rest c, ctrCrypt (p.E s.kei) s.ctri C = .done rest c →
        t.ctri = ctrAdd s.ctri ((N - 48) / 16) ∧
        (∀ info, p.MAC s.kmi (be32 seq ++ (B0 ++ rest)) = .fail info →
          t.status = 0x06#8 ∧ t.result = some ⟨0x06#8, wr, [], info⟩) ∧
        (∀ X, p.MAC s.kmi (be32 seq ++ (B0 ++ rest)) = .ok X →
          (X ≠ T → t.status = 0x03#8 ∧ t.result = some ⟨0x03#8, wr, [], []⟩) ∧
          (X = T → padlen < 4 → t.status = 0x04#8 ∧ t.result = some ⟨0x04#8, wr, [], []⟩) ∧
          (X = T → 4 ≤ padlen → N - 32 < 5 + padlen →
            t.status = 0x05#8 ∧ t.result = some ⟨0x05#8, wr, [], []⟩) ∧
          (X = T → 4 ≤ padlen → 5 + padlen ≤ N - 32 →
            t.status = 0x00#8 ∧ t.result = some ⟨0x00#8, wr, slice (B0 ++ rest) 5 (N - 32 - padlen), []⟩)))

/-- ENC on an initialised engine with room for the tag completes: ciphertext in place, tag appended, `CTRO` advanced by
the full blocks, `NEWWR = WR + 32`; or, if a primitive fails or the tag is not 32 bytes, with nothing but the failure.
Where `WR + 32` does not fit 32 bits `NEWWR` is a free value (log 13) and nothing is said of it. The engine's own command
is the case `p = Config.primitives`. -/
def Obligations.EncEncryptsAndAppendsTheTag : Prop :=
  ∀ (p : Primitives) (rd wr seq : BitVec 32) (s : State), rd.toNat ≤ wr.toNat → s.mem.wf = true → s.valid = true →
    wr.toNat + 32 ≤ s.cap →
    let N := windowSize rd wr
    let P := s.mem.readBytes rd.toNat N
    ∃ t, execUnder p (.enc rd wr seq) s = .next t ∧ (p = Config.primitives → exec (.enc rd wr seq) s = .next t) ∧
      (∀ info, p.MAC s.kmo (be32 seq ++ P) = .fail info →
        t = { s with status := 0x06#8, result := some ⟨0x06#8, wr, [], info⟩ }) ∧
      (∀ T, p.MAC s.kmo (be32 seq ++ P) = .ok T →
        (T.length ≠ 32 → t = { s with status := 0x07#8, result := some ⟨0x07#8, wr, [], []⟩ }) ∧
        (T.length = 32 → ∀ info c, ctrCrypt (p.E s.keo) s.ctro P = .failed info c →
          t = { s with status := 0x06#8, result := some ⟨0x06#8, wr, [], info⟩ }) ∧
        (T.length = 32 → ∀ C c, ctrCrypt (p.E s.keo) s.ctro P = .done C c →
          (∃ nw, t = { s with mem := t.mem, ctro := ctrAdd s.ctro (N / 16), status := 0x00#8
                              result := some ⟨0x00#8, nw, [], []⟩ } ∧
            (wr.toNat + 32 < 2 ^ 32 → nw.toNat = wr.toNat + 32)) ∧
          t.mem.readBytes rd.toNat N = C ∧ t.mem.readBytes wr.toNat 32 = T ∧
          (∀ a, (a < rd.toNat ∨ wr.toNat + 32 ≤ a) → t.mem.read a = s.mem.read a)))

/-- R122: an ENC that fails has changed neither the buffer space nor `CTRO`. -/
def Obligations.FailedEncChangesNothing : Prop :=
  ∀ (p : Primitives) (rd wr seq : BitVec 32) (s t : State), execUnder p (.enc rd wr seq) s = .next t →
    t.status ≠ 0x00#8 →
    t.mem = s.mem ∧ t.ctro = s.ctro ∧ t = { s with status := t.status, result := t.result }

/-- What ENC stores and where `CTRO` goes is a function of `KEO`, `KMO`, `CTRO`, `SEQ` and the window's bytes alone,
wherever the window lies. -/
def Obligations.EncOutputIsAFunctionOfItsInputs : Prop :=
  ∀ (p : Primitives) (rd wr rd' wr' seq : BitVec 32) (s s' t : State),
    rd.toNat ≤ wr.toNat → rd'.toNat ≤ wr'.toNat → wr.toNat + 32 ≤ s.cap → wr'.toNat + 32 ≤ s'.cap →
    s.mem.wf = true → s'.mem.wf = true → s.valid = s'.valid → s.keo = s'.keo → s.kmo = s'.kmo → s.ctro = s'.ctro →
    s.mem.readBytes rd.toNat (windowSize rd wr) = s'.mem.readBytes rd'.toNat (windowSize rd' wr') →
    execUnder p (.enc rd wr seq) s = .next t →
    ∃ t', execUnder p (.enc rd' wr' seq) s' = .next t' ∧ t'.status = t.status ∧ t'.ctro = t.ctro ∧
      (t.status = 0x00#8 → t.mem.readBytes rd.toNat (windowSize rd wr + 32)
        = t'.mem.readBytes rd'.toNat (windowSize rd' wr' + 32))

/-- DECVF reports success or a padding failure only for a frame whose tag is `MAC(KMI, SEQ, frame)`; it releases payload
bytes only on success. -/
def Obligations.OnlyAuthenticFramesPassTheTag : Prop :=
  ∀ (p : Primitives) (rd wr seq : BitVec 32) (s t : State), execUnder p (.decvf rd wr seq) s = .next t →
    (t.status = 0x00#8 ∨ t.status = 0x04#8 ∨ t.status = 0x05#8 →
      ∃ rest c, ctrCrypt (p.E s.kei) s.ctri (s.mem.readBytes (rd.toNat + 16) (windowSize rd wr - 48)) = .done rest c ∧
        p.MAC s.kmi (be32 seq ++ (s.mem.readBytes rd.toNat 16 ++ rest))
          = .ok (s.mem.readBytes (rd.toNat + windowSize rd wr - 32) 32)) ∧
    (∀ r, t.result = some r → r.payload ≠ [] → t.status = 0x00#8)

/-- DECFB and DECVF of one frame of wire size `N` advance `CTRI` by the `(N - 32) div 16` full blocks of its
ciphertext. -/
def Obligations.InboundFrameAdvancesTheCounterByItsBlocks : Prop :=
  ∀ (p : Primitives) (rd wr wr' seq : BitVec 32) (s t u : State),
    execUnder p (.decfb rd wr') s = .next t → t.status = 0x00#8 → execUnder p (.decvf rd wr seq) t = .next u →
    (u.status = 0x00#8 ∨ u.status = 0x03#8 ∨ u.status = 0x04#8 ∨ u.status = 0x05#8) →
    u.ctri = ctrAdd s.ctri ((windowSize rd wr - 32) / 16)

/-- The round trip: a frame that ENC sends from `a` and that `b` receives unchanged, crosswise initialised and under the
same sequence number, comes out of DECFB and DECVF with its payload, and the two counters are in step again. -/
def Obligations.SentFrameIsReceived : Prop :=
  ∀ (p : Primitives) (rda wra rdb wrb wrb1 seq : BitVec 32) (a a' b : State) (padlen : Nat),
    Crosswise a b → a.mem.wf = true → b.mem.wf = true → b.valid = true →
    16 ≤ windowSize rda wra → padlen = (a.mem.read (rda.toNat + 4)).toNat → 4 ≤ padlen →
    padlen + 5 ≤ windowSize rda wra → execUnder p (.enc rda wra seq) a = .next a' → a'.status = 0x00#8 →
    wrb.toNat = rdb.toNat + windowSize rda wra + 32 → wrb.toNat ≤ b.cap →
    rdb.toNat + 16 ≤ wrb1.toNat → wrb1.toNat ≤ b.cap →
    b.mem.readBytes rdb.toNat (windowSize rda wra + 32) = a'.mem.readBytes rda.toNat (windowSize rda wra + 32) →
    ∃ b1 b2, execUnder p (.decfb rdb wrb1) b = .next b1 ∧ b1.status = 0x00#8 ∧
      execUnder p (.decvf rdb wrb seq) b1 = .next b2 ∧ b2.status = 0x00#8 ∧
      b2.result = some ⟨0x00#8, wrb,
        slice (a.mem.readBytes rda.toNat (windowSize rda wra)) 5 (windowSize rda wra - padlen), []⟩ ∧
      Crosswise a' b2

/-- A frame of whole blocks leaves `CTRO` at a counter value it has not used; a frame with a tail leaves it at
`ctr_add(CTRO, N div 16)`, the value whose keystream block its tail used, where the next frame starts. -/
def Obligations.OnlyWholeBlockFramesLeaveAFreshCounter : Prop :=
  ∀ (p : Primitives) (rd wr seq : BitVec 32) (s t : State), execUnder p (.enc rd wr seq) s = .next t →
    t.status = 0x00#8 →
    (BlockMultiple rd wr → ∀ j, 16 * j < windowSize rd wr → t.ctro ≠ ctrAdd s.ctro j) ∧
    (¬ BlockMultiple rd wr → 16 * (windowSize rd wr / 16) < windowSize rd wr ∧
      t.ctro = ctrAdd s.ctro (windowSize rd wr / 16))

/-! ## Frames and whole-machine rules -/

/-- R161: a failing command hands back its code, and what it has changed besides `STATUS` and the result record. -/
def Obligations.FailureChangesOnlyWhatTheTableSays : Prop :=
  ∀ (p : Primitives) (i : Instr) (s t : State), execUnder p i s = .next t → t.status ≠ 0x00#8 →
    t = { s with ctri := t.ctri, phase := t.phase, status := t.status, result := t.result } ∧
    (∃ info, t.result = some ⟨t.status, i.wr, [], info⟩) ∧
    ((∀ rd wr seq, i ≠ .decvf rd wr seq) → t.ctri = s.ctri ∧ t.phase = s.phase) ∧
    (∀ rd wr seq, i = .decvf rd wr seq →
      (t.status = 0x02#8 ∨ t.status = 0x08#8 ∨ t.status = 0x09#8 → t.ctri = s.ctri ∧ t.phase = s.phase) ∧
      (t.status = 0x03#8 ∨ t.status = 0x04#8 ∨ t.status = 0x05#8 →
        t.phase = .idle ∧ t.ctri = ctrAdd s.ctri ((windowSize rd wr - 48) / 16)) ∧
      (t.status = 0x06#8 → t.phase = .idle ∧
        ∃ j, j ≤ (windowSize rd wr - 48) / 16 ∧ t.ctri = ctrAdd s.ctri j) ∧
      t.status ≠ 0x01#8 ∧ t.status ≠ 0x07#8)

/-- No command stores outside the bytes R52 gives it: INIT, REKEY and DECVF store nothing, DECFB at most the first 16
bytes of its window, ENC at most its window and the 32 bytes after it. -/
def Obligations.CommandsStoreOnlyWhereTheyMay : Prop :=
  ∀ (p : Primitives) (i : Instr) (s t : State), execUnder p i s = .next t →
    ∀ a, ¬ InStores i a → t.mem.read a = s.mem.read a

/-- What a command does depends on no buffer byte outside its window. -/
def Obligations.CommandsReadOnlyTheirWindow : Prop :=
  ∀ (i : Instr) (s : State) (m : Memory), s.mem.wf = true → m.wf = true →
    (∀ a, InWindow i.rd i.wr a → m.read a = s.mem.read a) →
    (∀ r, exec i s = .refused r ↔ exec i { s with mem := m } = .refused r) ∧
    (∀ t, exec i s = .next t → ∃ t', exec i { s with mem := m } = .next t' ∧ t = { t' with mem := t.mem } ∧
      ∀ a, t.mem.read a = t'.mem.read a ∨ (t.mem.read a = s.mem.read a ∧ t'.mem.read a = m.read a))

/-- No command faults; the only refusal is the replacement of an initialised engine's keys mid-packet by a good key
block. That a bad key block is reported and not refused there is the model's choice (log 12). -/
def Obligations.CommandsStopOnlyMidPacket : Prop :=
  ∀ (i : Instr) (s : State), (∀ f, exec i s ≠ .fault f) ∧
    (∀ r, exec i s = .refused r ↔ r = .keyReplacementMidPacket ∧
      (i = .init i.rd i.wr ∨ i = .rekey i.rd i.wr) ∧ s.valid = true ∧ s.phase = .peeked ∧
      i.rd.toNat ≤ i.wr.toNat ∧ i.wr.toNat ≤ s.cap ∧ ∃ k : SessionKeys, s.Holds i.rd i.wr k.material)

/-- The four keys change only by a reset or by a successful INIT or REKEY. -/
def Obligations.KeysChangeOnlyByKeyCommandOrReset : Prop :=
  ∀ s t : State, step s = .next t → ¬ (t.kei = s.kei ∧ t.keo = s.keo ∧ t.kmi = s.kmi ∧ t.kmo = s.kmo) →
    (∃ rest, s.inputs = .reset :: rest) ∨
    (∃ rd wr, (s.Issues (.init rd wr) ∨ s.Issues (.rekey rd wr)) ∧ t.status = 0x00#8)

/-- `VALID` is set by a successful INIT and by nothing else, and cleared by a reset and by nothing else. -/
def Obligations.ValidIsSetByInitAndClearedByReset : Prop :=
  ∀ s t : State, step s = .next t →
    (s.valid = false → t.valid = true → ∃ rd wr, s.Issues (.init rd wr) ∧ t.status = 0x00#8) ∧
    (s.valid = true → t.valid = false → ∃ rest, s.inputs = .reset :: rest)

/-- From a peeked first block, of all commands only a DECVF past its entry checks brings `PHASE` back to `IDLE`; only a
successful DECFB sets `PEEKED`. In a step nothing but a command or a reset changes `PHASE`. -/
def Obligations.PhaseFollowsTheTwoStepDecrypt : Prop :=
  (∀ (p : Primitives) (i : Instr) (s t : State), Inv s → execUnder p i s = .next t →
    (s.phase = .peeked → t.phase = .idle → ∃ rd wr seq, i = .decvf rd wr seq ∧ 48 ≤ windowSize rd wr) ∧
    (s.phase = .idle → t.phase = .peeked → ∃ rd wr, i = .decfb rd wr ∧ t.status = 0x00#8)) ∧
  (∀ s t : State, step s = .next t → t.phase ≠ s.phase → (∃ rest, s.inputs = .reset :: rest) ∨ ∃ i, s.Issues i)

/-- DECFB and DECVF neither read nor write the outbound registers. -/
def Obligations.InboundCommandsIgnoreOutboundRegisters : Prop :=
  ∀ (rd wr seq : BitVec 32) (s : State) (keo : Bytes 16) (kmo : Bytes 32) (ctro : Bytes 16),
    (∃ t, exec (.decfb rd wr) s = .next t ∧ t = t.withOutbound s.keo s.kmo s.ctro ∧
      exec (.decfb rd wr) (s.withOutbound keo kmo ctro) = .next (t.withOutbound keo kmo ctro)) ∧
    (∃ t, exec (.decvf rd wr seq) s = .next t ∧ t = t.withOutbound s.keo s.kmo s.ctro ∧
      exec (.decvf rd wr seq) (s.withOutbound keo kmo ctro) = .next (t.withOutbound keo kmo ctro))

/-- ENC neither reads nor writes the inbound registers and `PHASE`. -/
def Obligations.OutboundCommandIgnoresInboundRegisters : Prop :=
  ∀ (rd wr seq : BitVec 32) (s : State) (kei : Bytes 16) (kmi : Bytes 32) (ctri : Bytes 16) (phase : Phase),
    ∃ t, exec (.enc rd wr seq) s = .next t ∧ t = t.withInbound s.kei s.kmi s.ctri s.phase ∧
      exec (.enc rd wr seq) (s.withInbound kei kmi ctri phase) = .next (t.withInbound kei kmi ctri phase)

/-- DECFB and DECVF do not test `PHASE`: run from any phase they give the same registers, buffer and result. -/
def Obligations.InboundCommandsDoNotTestPhase : Prop :=
  ∀ (p : Primitives) (i : Instr) (s : State) (phase : Phase),
    (i = .decfb i.rd i.wr ∨ ∃ seq, i = .decvf i.rd i.wr seq) →
    ∃ t t', execUnder p i s = .next t ∧ execUnder p i { s with phase := phase } = .next t' ∧
      t = { t' with phase := t.phase } ∧
      (t.status = 0x00#8 → t'.phase = t.phase)

/-- An inbound command and an ENC whose bytes do not overlap commute: the same registers, buffer and results in either
order; only `STATUS` and the last record are those of the command that came last. -/
def Obligations.DirectionsCommute : Prop :=
  ∀ (i : Instr) (rd wr seq : BitVec 32) (s : State), s.mem.wf = true →
    (i = .decfb i.rd i.wr ∨ ∃ q, i = .decvf i.rd i.wr q) → WindowsApart i.rd i.wr rd wr →
    ∃ s1 s12 s2 s21, exec i s = .next s1 ∧ exec (.enc rd wr seq) s1 = .next s12 ∧
      exec (.enc rd wr seq) s = .next s2 ∧ exec i s2 = .next s21 ∧
      s12.result = s2.result ∧ s21.result = s1.result ∧
      s12 = { s21 with status := s12.status, result := s12.result }

/-- While `VALID = 0` no command's outcome depends on what the six registers hold, so no claim rests on the values the
model gives them at reset (log 3). -/
def Obligations.RegistersAreUnreadBeforeInit : Prop :=
  ∀ (i : Instr) (s : State) (r : KeyRegisters), s.valid = false →
    ∃ t, exec i s = .next t ∧
      (t.status = 0x00#8 → exec i (s.withRegisters r) = .next t) ∧
      (t.status ≠ 0x00#8 → exec i (s.withRegisters r) = .next (t.withRegisters r))

/-- `STATUS` and the last record change nothing about what a command does: there is no lockout. -/
def Obligations.EarlierStatusHasNoEffect : Prop :=
  ∀ (i : Instr) (s : State) (status : BitVec 8) (result : Option Result),
    exec i { s with status := status, result := result } = exec i s

/-- The invariant holds after every step from a state that has it. -/
def Obligations.StepKeepsTheInvariant : Prop := ∀ s t : State, Inv s → step s = .next t → Inv t

/-- The invariant holds after reset. -/
def Obligations.ResetHasTheInvariant : Prop := Inv State.reset

/-! ## The datapath -/

/-- R131: `ctr_inc` adds one modulo `2^(8n)`; bytes left of the carry chain stay; all `FF` becomes all `00`; it is a
bijection; `2^128` increments of a 16-byte counter bring it back. -/
def Obligations.CounterIncrementAddsOne : Prop :=
  (∀ c : List Byte, (ctrIncBytes c).length = c.length ∧ be (ctrIncBytes c) = (be c + 1) % 2 ^ (8 * c.length)) ∧
  (∀ (left : List Byte) (b : Byte) (k : Nat), b ≠ 0xFF#8 →
    ctrIncBytes (left ++ b :: List.replicate k 0xFF#8) = left ++ (b + 1#8) :: List.replicate k 0x00#8) ∧
  (∀ n, ctrIncBytes (List.replicate n 0xFF#8) = List.replicate n 0x00#8) ∧
  (∀ n, Function.Bijective (ctrInc : Bytes n → Bytes n)) ∧
  (∀ (c : Bytes 16) (k : Nat), k = 2 ^ 128 → ctrAdd c k = c)

/-- R132: `ctr_add(c, k)` is `ctr_inc` applied `k` times, and is `BE128((be(c) + k) mod 2^128)`. -/
def Obligations.CounterAddIsAdditionModulo : Prop :=
  ∀ (c : Bytes 16) (k : Nat), ctrAdd c k = ctrInc^[k] c ∧ ctrAdd c k = beVec 16 ((be c.toList + k) % 2 ^ 128)

/-- The keystream scheduler, byte by byte: byte `i` is XORed with byte `i mod 16` of `E` at the counter `i div 16` places
on; the counter advances by the full blocks only; a failure reports the counter of the block whose call failed. -/
def Obligations.KeystreamIsPositional : Prop :=
  ∀ (E : Bytes 16 → PrimResult (Bytes 16)) (c : Bytes 16) (data : List Byte),
    (∀ out c', ctrCrypt E c data = .done out c' ↔
      out.length = data.length ∧ c' = ctrAdd c (data.length / 16) ∧
      ∀ (i : Nat) (h : i < data.length), ∃ ks, E (ctrAdd c (i / 16)) = .ok ks ∧
        out[i]? = some (data[i] ^^^ ks[i % 16]'(Nat.mod_lt _ (by decide)))) ∧
    (∀ info c', ctrCrypt E c data = .failed info c' ↔
      ∃ j, 16 * j < data.length ∧ c' = ctrAdd c j ∧ E c' = .fail info ∧
        ∀ j', j' < j → ∃ ks, E (ctrAdd c j') = .ok ks)

/-- The same call decrypts what it encrypted. -/
def Obligations.CtrCryptIsItsOwnInverse : Prop :=
  ∀ (E : Bytes 16 → PrimResult (Bytes 16)) (c c' : Bytes 16) (data out : List Byte),
    ctrCrypt E c data = .done out c' → ctrCrypt E c out = .done data c'

/-- The two MAC messages agree: the length field is hashed once. -/
def Obligations.MacMessagesAgree : Prop :=
  ∀ (seq : BitVec 32) (P : List Byte), 4 ≤ P.length →
    be32 (BitVec.ofNat 32 (be (slice P 0 4))) = slice P 0 4 ∧
    macMsgIn seq (BitVec.ofNat 32 (be (slice P 0 4))) P = be32 seq ++ P ∧ macMsgOut seq P = be32 seq ++ P

/-- The tag comparator says equal exactly for equal strings: equal length, every byte, no prefix. -/
def Obligations.TagComparatorIsEquality : Prop := ∀ X T : List Byte, tagEq X T = true ↔ X = T

/-- R141: the padding stripper, and that it does not look at the padding bytes. -/
def Obligations.PaddingIsStripped : Prop :=
  ∀ P : List Byte, 16 ≤ P.length →
    let padlen := (P.getD 4 0#8).toNat
    (padlen < 4 → stripPadding P = .error .insufficientPadding) ∧
    (4 ≤ padlen → P.length < 5 + padlen → stripPadding P = .error .excessPadding) ∧
    (4 ≤ padlen → 5 + padlen ≤ P.length → stripPadding P = .ok (slice P 5 (P.length - padlen)) ∧
      ∀ padding : List Byte, padding.length = padlen →
        stripPadding (P.take (P.length - padlen) ++ padding) = stripPadding P)

/-- Bytes written are read back in order, and every other byte stays. -/
def Obligations.WrittenBytesReadBack : Prop :=
  ∀ (m : Memory) (off : Nat) (v : List Byte), m.wf = true →
    (m.writeBytes off v).wf = true ∧ (m.writeBytes off v).readBytes off v.length = v ∧
    ∀ a, (a < off ∨ off + v.length ≤ a) → (m.writeBytes off v).read a = m.read a
end

