-- ==== Sys2Proof/Laws/ByteOrder.lean ====
section
/-! SUPPORT. The small lemmas of the byte-string operations. -/

namespace Sys2Proof

theorem be_lt (s : List Byte) : be s < 256 ^ s.length := by
  induction s with
  | nil => simp [be]
  | cons b s ih =>
    have hb : b.toNat < 256 := b.isLt
    simp only [be, List.length_cons, pow_succ]
    nlinarith

theorem be_append (a b : List Byte) : be (a ++ b) = be a * 256 ^ b.length + be b := by
  induction a with
  | nil => simp [be]
  | cons x a ih => simp only [List.cons_append, be, ih, List.length_append, pow_add]; ring

theorem be_beBytes (n v : Nat) : be (beBytes n v) = v % 256 ^ n := by
  induction n generalizing v with
  | zero => simp [be, beBytes, Nat.mod_one]
  | succ n ih =>
    simp only [beBytes, be, length_beBytes, ih, BitVec.toNat_ofNat]
    have h := Nat.mod_mul (x := v) (a := 256 ^ n) (b := 256)
    rw [show (256 : Nat) ^ (n + 1) = 256 ^ n * 256 from pow_succ _ _, h]
    norm_num
    ring

theorem beBytes_be (s : List Byte) : beBytes s.length (be s) = s := by
  induction s with
  | nil => rfl
  | cons b s ih =>
    have hs := be_lt s
    have hpos : 0 < 256 ^ s.length := by positivity
    have hdiv : (b.toNat * 256 ^ s.length + be s) / 256 ^ s.length = b.toNat := by
      rw [Nat.add_comm, Nat.add_mul_div_right _ _ hpos, Nat.div_eq_of_lt hs, Nat.zero_add]
    have hmod : ∀ n v w, beBytes n (w * 256 ^ n + v) = beBytes n v := by
      intro n
      induction n with
      | zero => intros; rfl
      | succ n ihn =>
        intro v w
        simp only [beBytes]
        have e : w * 256 ^ (n + 1) + v = w * 256 * 256 ^ n + v := by ring
        rw [e, ihn v (w * 256)]
        congr 1
        have hp : 0 < 256 ^ n := by positivity
        rw [Nat.add_comm, Nat.add_mul_div_right _ _ hp]
        apply BitVec.eq_of_toNat_eq
        simp [BitVec.toNat_ofNat, Nat.add_mul_mod_self_right]
    simp only [be, List.length_cons, beBytes, hdiv, hmod, ih]
    congr 1
    simp

theorem be_be32 (v : BitVec 32) : be (be32 v) = v.toNat := by
  rw [be32, be_beBytes, Nat.mod_eq_of_lt]
  have := v.isLt
  norm_num at this ⊢
  exact this

@[simp] theorem length_be32 (v : BitVec 32) : (be32 v).length = 4 := length_beBytes 4 _

@[simp] theorem toList_beVec (n v : Nat) : (beVec n v).toList = beBytes n v := rfl

@[simp] theorem length_xorBytes (a b : List Byte) : (xorBytes a b).length = min a.length b.length := by
  simp [xorBytes]

/-- A byte string of the right length is taken as it is. -/
theorem bytesOfList?_some {n : Nat} {s : List Byte} (h : s.length = n) :
    ∃ v : Bytes n, bytesOfList? n s = some v ∧ v.toList = s := by
  refine ⟨⟨s.toArray, by simpa using h⟩, ?_, rfl⟩
  simp [bytesOfList?, h]

/-- What is taken has the right length. -/
theorem toList_of_bytesOfList? {n : Nat} {s : List Byte} {v : Bytes n} (h : bytesOfList? n s = some v) :
    v.toList = s ∧ s.length = n := by
  unfold bytesOfList? at h
  split at h
  · rename_i hl
    simp only [Option.some.injEq] at h
    subst h
    exact ⟨rfl, hl⟩
  · cases h

theorem bytesOfList?_toList {n : Nat} (v : Bytes n) : bytesOfList? n v.toList = some v := by
  obtain ⟨w, hw, hl⟩ := bytesOfList?_some (n := n) (s := v.toList) (by simp)
  rw [hw]
  congr 1
  exact Vector.toList_inj.mp hl

theorem bytesOfList?_none {n : Nat} {s : List Byte} (h : s.length ≠ n) : bytesOfList? n s = none := by
  simp [bytesOfList?, h]

end Sys2Proof
end

