-- ==== Sys2Proof/Laws/Datapath.lean ====
section
/-! SUPPORT. The small lemmas of the datapath functions. -/

namespace Sys2Proof.Machine

open Sys2Proof.Config (PrimResult)

@[simp] theorem toList_ctrInc {n : Nat} (c : Bytes n) : (ctrInc c).toList = ctrIncBytes c.toList := rfl

@[simp] theorem ctrAdd_zero {n : Nat} (c : Bytes n) : ctrAdd c 0 = c := rfl

theorem ctrAdd_succ {n : Nat} (c : Bytes n) (k : Nat) : ctrAdd c (k + 1) = ctrAdd (ctrInc c) k := rfl

theorem ctrAdd_add {n : Nat} (c : Bytes n) (j k : Nat) : ctrAdd c (j + k) = ctrAdd (ctrAdd c j) k := by
  induction j generalizing c with
  | zero => simp
  | succ j ih => rw [show j + 1 + k = j + k + 1 by omega, ctrAdd_succ, ctrAdd_succ, ih]

/-- The one equation of the loop with a block still to do. -/
theorem ctrCryptBlocks_succ (E : Bytes 16 → PrimResult (Bytes 16)) (nb : Nat) (c : Bytes 16) (data : List Byte)
    (r : CryptResult) :
    ctrCryptBlocks E (nb + 1) c data = r ↔
      (∃ info, E c = .fail info ∧ r = .failed info c) ∨
      (∃ ks, E c = .ok ks ∧
        ((∃ info c', ctrCryptBlocks E nb (ctrInc c) (data.drop 16) = .failed info c' ∧ r = .failed info c') ∨
         (∃ out c', ctrCryptBlocks E nb (ctrInc c) (data.drop 16) = .done out c' ∧
            r = .done (xorBytes (data.take 16) ks.toList ++ out) c'))) := by
  simp only [ctrCryptBlocks]
  cases E c with
  | fail info => simp [eq_comm]
  | ok ks =>
    cases ctrCryptBlocks E nb (ctrInc c) (data.drop 16) with
    | failed info c' => simp [eq_comm]
    | done out c' => simp [eq_comm]

/-- The one equation of the tail. -/
theorem ctrCryptBlocks_zero (E : Bytes 16 → PrimResult (Bytes 16)) (c : Bytes 16) (data : List Byte)
    (r : CryptResult) :
    ctrCryptBlocks E 0 c data = r ↔
      (data = [] ∧ r = .done [] c) ∨
      (data ≠ [] ∧ ∃ info, E c = .fail info ∧ r = .failed info c) ∨
      (data ≠ [] ∧ ∃ ks, E c = .ok ks ∧ r = .done (xorBytes data ks.toList) c) := by
  simp only [ctrCryptBlocks]
  by_cases hd : data = []
  · simp [hd, eq_comm]
  · cases E c <;> simp [hd, eq_comm]

/-- What `ctr_crypt` gives when it is done: as many bytes as it was given, and the counter advanced by the full
blocks. -/
theorem ctrCryptBlocks_done {E : Bytes 16 → PrimResult (Bytes 16)} {nb : Nat} {c c' : Bytes 16} {data out : List Byte}
    (hlo : 16 * nb ≤ data.length) (hhi : data.length < 16 * nb + 16)
    (h : ctrCryptBlocks E nb c data = .done out c') : out.length = data.length ∧ c' = ctrAdd c nb := by
  induction nb generalizing c data out with
  | zero =>
    rcases (ctrCryptBlocks_zero E c data _).mp h with ⟨hd, hr⟩ | ⟨_, info, _, hr⟩ | ⟨_, ks, _, hr⟩
    · cases hr; subst hd; exact ⟨rfl, rfl⟩
    · cases hr
    · cases hr
      refine ⟨?_, rfl⟩
      simp only [length_xorBytes, Vector.length_toList]
      omega
  | succ nb ih =>
    rcases (ctrCryptBlocks_succ E nb c data _).mp h with ⟨_, _, hr⟩ | ⟨ks, _, ⟨_, _, _, hr⟩ | ⟨out', c'', hin, hr⟩⟩
    · cases hr
    · cases hr
    · cases hr
      have hrec := ih (by simp only [List.length_drop]; omega) (by simp only [List.length_drop]; omega) hin
      refine ⟨?_, hrec.2⟩
      simp only [List.length_append, length_xorBytes, List.length_take, Vector.length_toList, hrec.1,
        List.length_drop]
      omega

theorem ctrCrypt_done {E : Bytes 16 → PrimResult (Bytes 16)} {c c' : Bytes 16} {data out : List Byte}
    (h : ctrCrypt E c data = .done out c') : out.length = data.length ∧ c' = ctrAdd c (data.length / 16) :=
  ctrCryptBlocks_done (by omega) (by omega) h

/-- What `ctr_crypt` gives when `E` fails: the counter after the blocks that did succeed. -/
theorem ctrCryptBlocks_failed {E : Bytes 16 → PrimResult (Bytes 16)} {nb : Nat} {c c' : Bytes 16}
    {data : List Byte} {info : List Byte} (h : ctrCryptBlocks E nb c data = .failed info c') :
    E c' = .fail info ∧ ∃ j, j ≤ nb ∧ c' = ctrAdd c j := by
  induction nb generalizing c data with
  | zero =>
    rcases (ctrCryptBlocks_zero E c data _).mp h with ⟨_, hr⟩ | ⟨_, _, hE, hr⟩ | ⟨_, _, _, hr⟩
    · cases hr
    · cases hr; exact ⟨hE, 0, Nat.le_refl 0, rfl⟩
    · cases hr
  | succ nb ih =>
    rcases (ctrCryptBlocks_succ E nb c data _).mp h with ⟨_, hE, hr⟩ | ⟨_, _, ⟨_, _, hin, hr⟩ | ⟨_, _, _, hr⟩⟩
    · cases hr; exact ⟨hE, 0, Nat.zero_le _, rfl⟩
    · cases hr
      obtain ⟨hE, j, hj, hc⟩ := ih hin
      exact ⟨hE, j + 1, by omega, hc⟩
    · cases hr

theorem ctrCrypt_failed {E : Bytes 16 → PrimResult (Bytes 16)} {c c' : Bytes 16} {data info : List Byte}
    (h : ctrCrypt E c data = .failed info c') :
    E c' = .fail info ∧ ∃ j, j ≤ data.length / 16 ∧ c' = ctrAdd c j :=
  ctrCryptBlocks_failed h

/-- The padding stripper fails in two ways only. -/
theorem stripPadding_error {P : List Byte} {f : Failure} (h : stripPadding P = .error f) :
    f = .insufficientPadding ∨ f = .excessPadding := by
  unfold stripPadding at h
  dsimp only at h
  split at h
  · cases h; exact .inl rfl
  · split at h
    · cases h; exact .inr rfl
    · cases h

end Sys2Proof.Machine
end

