-- ==== Sys2Proof/Laws/Memory.lean ====
section
/-! SUPPORT. The buffer space: one byte read after one byte written, and the canonical form that every operation
keeps. -/

namespace Sys2Proof.Machine.Memory

theorem read_entry_same (a : Nat) (v : Byte) (m : Memory) (h : v = unlistedByte → m.read a = unlistedByte) :
    (Memory.entry a v m).read a = v := by
  unfold Memory.entry
  split
  · rename_i hv; rw [h hv, hv]
  · simp [Memory.read]

theorem read_entry_other {a b : Nat} (v : Byte) (m : Memory) (h : b ≠ a) :
    (Memory.entry a v m).read b = m.read b := by
  unfold Memory.entry
  split
  · rfl
  · simp [Memory.read, Ne.symm h]

/-- An offset below every listed one reads as unlisted. -/
theorem read_of_all_above {a : Nat} {m : Memory} (h : m.all (fun c => a < c.1) = true) : m.read a = unlistedByte := by
  induction m with
  | nil => rfl
  | cons c m ih =>
    obtain ⟨k, v⟩ := c
    simp only [List.all_cons, Bool.and_eq_true, decide_eq_true_eq] at h
    simp only [Memory.read]
    rw [if_neg (by omega)]
    exact ih h.2

theorem all_above_mono {a b : Nat} {m : Memory} (hab : a ≤ b) (h : m.all (fun c => b < c.1) = true) :
    m.all (fun c => a < c.1) = true := by
  simp only [List.all_eq_true, decide_eq_true_eq] at h ⊢
  intro c hc
  have := h c hc
  omega

/-- A read after a write to the same offset gives the byte written. -/
theorem read_write_same {m : Memory} (hm : m.wf = true) (a : Nat) (v : Byte) : (m.write a v).read a = v := by
  induction m with
  | nil => exact read_entry_same a v [] (fun _ => rfl)
  | cons c m ih =>
    obtain ⟨k, w⟩ := c
    simp only [Memory.wf, Bool.and_eq_true] at hm
    simp only [Memory.write]
    split
    · rename_i hlt
      refine read_entry_same a v _ (fun _ => ?_)
      apply read_of_all_above
      simp only [List.all_cons, Bool.and_eq_true, decide_eq_true_eq]
      exact ⟨hlt, all_above_mono (by omega) hm.1.2⟩
    · split
      · rename_i hak
        exact read_entry_same a v m (fun _ => read_of_all_above (hak ▸ hm.1.2))
      · rename_i hlt hne
        simp only [Memory.read]
        rw [if_neg (by omega)]
        exact ih hm.2

/-- A write leaves every other offset alone. -/
theorem read_write_other (m : Memory) {a b : Nat} (v : Byte) (h : b ≠ a) : (m.write a v).read b = m.read b := by
  induction m with
  | nil => exact read_entry_other v [] h
  | cons c m ih =>
    obtain ⟨k, w⟩ := c
    simp only [Memory.write]
    split
    · exact read_entry_other v _ h
    · split
      · rename_i hak
        rw [read_entry_other v _ h]
        simp [Memory.read, ← hak, Ne.symm h]
      · simp only [Memory.read, ih]

theorem all_entry {a : Nat} {v : Byte} {m : Memory} (f : Host.Cell → Bool) (ha : ∀ v, f (a, v) = true)
    (hm : m.all f = true) : (Memory.entry a v m).all f = true := by
  unfold Memory.entry
  split
  · exact hm
  · simp only [List.all_cons, ha, hm, Bool.and_self]

theorem all_write {a : Nat} {m : Memory} (v : Byte) (f : Host.Cell → Bool) (ha : ∀ v, f (a, v) = true)
    (hm : m.all f = true) : (m.write a v).all f = true := by
  induction m with
  | nil => exact all_entry f ha hm
  | cons c m ih =>
    obtain ⟨k, w⟩ := c
    simp only [Memory.write]
    split
    · exact all_entry f ha hm
    · simp only [List.all_cons, Bool.and_eq_true] at hm
      split
      · exact all_entry f ha hm.2
      · simp only [List.all_cons, Bool.and_eq_true]
        exact ⟨hm.1, ih hm.2⟩

theorem wf_entry {a : Nat} {v : Byte} {m : Memory} (hm : m.wf = true) (ha : m.all (fun c => a < c.1) = true) :
    (Memory.entry a v m).wf = true := by
  unfold Memory.entry
  split
  · exact hm
  · rename_i hv
    simp only [Memory.wf, hm, ha, Bool.and_true, bne_iff_ne, ne_eq]
    exact hv

/-- A write keeps the canonical form. -/
theorem wf_write {m : Memory} (hm : m.wf = true) (a : Nat) (v : Byte) : (m.write a v).wf = true := by
  induction m with
  | nil => exact wf_entry rfl rfl
  | cons c m ih =>
    obtain ⟨k, w⟩ := c
    have hm' := hm
    simp only [Memory.wf, Bool.and_eq_true] at hm'
    simp only [Memory.write]
    split
    · rename_i hlt
      refine wf_entry hm ?_
      simp only [List.all_cons, Bool.and_eq_true, decide_eq_true_eq]
      exact ⟨hlt, all_above_mono (by omega) hm'.1.2⟩
    · split
      · rename_i hak
        exact wf_entry hm'.2 (hak ▸ hm'.1.2)
      · simp only [Memory.wf, Bool.and_eq_true]
        refine ⟨⟨hm'.1.1, ?_⟩, ih hm'.2⟩
        exact all_write v _ (fun _ => by simp only [decide_eq_true_eq]; omega) hm'.1.2

/-- A store of many bytes keeps the canonical form. -/
theorem wf_writeBytes {m : Memory} (hm : m.wf = true) (off : Nat) (v : List Byte) :
    (m.writeBytes off v).wf = true := by
  induction v generalizing m off with
  | nil => exact hm
  | cons b v ih => exact ih (wf_write hm off b) (off + 1)

/-- A store inside the buffer space keeps every listed offset inside it. -/
theorem below_writeBytes {m : Memory} {cap : Nat} (hm : m.below cap = true) (off : Nat) (v : List Byte)
    (h : off + v.length ≤ cap) : (m.writeBytes off v).below cap = true := by
  induction v generalizing m off with
  | nil => exact hm
  | cons b v ih =>
    simp only [List.length_cons] at h
    refine ih ?_ (off + 1) (by omega)
    exact all_write b _ (fun _ => by simp only [decide_eq_true_eq]; omega) hm

/-- Canonical memories that read alike are equal. -/
theorem ext_of_read {m m' : Memory} (hm : m.wf = true) (hm' : m'.wf = true) (h : ∀ a, m.read a = m'.read a) :
    m = m' := by
  induction m generalizing m' with
  | nil =>
    cases m' with
    | nil => rfl
    | cons c m' =>
      obtain ⟨k, v⟩ := c
      simp only [Memory.wf, Bool.and_eq_true, bne_iff_ne] at hm'
      have := h k
      simp only [Memory.read, if_true] at this
      exact absurd this.symm hm'.1.1
  | cons c m ih =>
    obtain ⟨k, v⟩ := c
    simp only [Memory.wf, Bool.and_eq_true, bne_iff_ne] at hm
    cases m' with
    | nil =>
      have := h k
      simp only [Memory.read, if_true] at this
      exact absurd this hm.1.1
    | cons c' m' =>
      obtain ⟨k', v'⟩ := c'
      simp only [Memory.wf, Bool.and_eq_true, bne_iff_ne] at hm'
      have hkk : k = k' := by
        rcases Nat.lt_trichotomy k k' with hlt | heq | hgt
        · have := h k
          simp only [Memory.read, if_true] at this
          rw [if_neg (by omega), read_of_all_above (all_above_mono (by omega) hm'.1.2)] at this
          exact absurd this hm.1.1
        · exact heq
        · have := h k'
          simp only [Memory.read, if_true] at this
          rw [if_neg (by omega), read_of_all_above (all_above_mono (by omega) hm.1.2)] at this
          exact absurd this.symm hm'.1.1
      subst hkk
      have hv : v = v' := by
        have := h k
        simpa only [Memory.read, if_true] using this
      subst hv
      congr 1
      refine ih hm.2 hm'.2 (fun a => ?_)
      by_cases hak : k = a
      · subst hak
        rw [read_of_all_above hm.1.2, read_of_all_above hm'.1.2]
      · have := h a
        simpa only [Memory.read, if_neg hak] using this

/-- Reading two neighbouring ranges is reading the range they make. -/
theorem readBytes_append (m : Memory) (off a b : Nat) :
    m.readBytes off (a + b) = m.readBytes off a ++ m.readBytes (off + a) b := by
  induction a generalizing off with
  | zero => simp [Memory.readBytes]
  | succ a ih =>
    rw [show a + 1 + b = a + b + 1 by omega]
    simp only [Memory.readBytes, ih, List.cons_append]
    rw [show off + 1 + a = off + (a + 1) by omega]

theorem getElem_readBytes (m : Memory) (off n j : Nat) (h : j < (m.readBytes off n).length) :
    (m.readBytes off n)[j] = m.read (off + j) := by
  induction n generalizing off j with
  | zero => simp [Memory.readBytes] at h
  | succ n ih =>
    cases j with
    | zero => rfl
    | succ j =>
      simp only [Memory.readBytes, List.getElem_cons_succ]
      rw [ih]
      congr 1
      omega

/-- Two memories that agree on a range read alike there. -/
theorem readBytes_congr {m m' : Memory} {off n : Nat}
    (h : ∀ a, off ≤ a → a < off + n → m.read a = m'.read a) : m.readBytes off n = m'.readBytes off n := by
  induction n generalizing off with
  | zero => rfl
  | succ n ih =>
    simp only [Memory.readBytes]
    rw [h off (Nat.le_refl _) (by omega), ih (fun a h1 h2 => h a (by omega) (by omega))]

end Sys2Proof.Machine.Memory
end

