-- ==== Sys2Proof/Laws/State.lean ====
section
/-! SUPPORT. One lemma per field per named update of the state. -/

namespace Sys2Proof.Machine

/-! ## `replaceKeys` -/

@[simp] theorem replaceKeys_kei (s : State) (k : SessionKeys) :
    (s.replaceKeys k).kei = k.kei := rfl
@[simp] theorem replaceKeys_keo (s : State) (k : SessionKeys) :
    (s.replaceKeys k).keo = k.keo := rfl
@[simp] theorem replaceKeys_kmi (s : State) (k : SessionKeys) :
    (s.replaceKeys k).kmi = k.kmi := rfl
@[simp] theorem replaceKeys_kmo (s : State) (k : SessionKeys) :
    (s.replaceKeys k).kmo = k.kmo := rfl
@[simp] theorem replaceKeys_ctri (s : State) (k : SessionKeys) :
    (s.replaceKeys k).ctri = k.ivi := rfl
@[simp] theorem replaceKeys_ctro (s : State) (k : SessionKeys) :
    (s.replaceKeys k).ctro = k.ivo := rfl
@[simp] theorem replaceKeys_valid (s : State) (k : SessionKeys) :
    (s.replaceKeys k).valid = s.valid := rfl
@[simp] theorem replaceKeys_phase (s : State) (k : SessionKeys) :
    (s.replaceKeys k).phase = .idle := rfl
@[simp] theorem replaceKeys_status (s : State) (k : SessionKeys) :
    (s.replaceKeys k).status = s.status := rfl
@[simp] theorem replaceKeys_cap (s : State) (k : SessionKeys) :
    (s.replaceKeys k).cap = s.cap := rfl
@[simp] theorem replaceKeys_mem (s : State) (k : SessionKeys) :
    (s.replaceKeys k).mem = s.mem := rfl
@[simp] theorem replaceKeys_inputs (s : State) (k : SessionKeys) :
    (s.replaceKeys k).inputs = s.inputs := rfl
@[simp] theorem replaceKeys_result (s : State) (k : SessionKeys) :
    (s.replaceKeys k).result = s.result := rfl

/-! ## `loadKeys` -/

@[simp] theorem loadKeys_kei (s : State) (k : SessionKeys) :
    (s.loadKeys k).kei = k.kei := rfl
@[simp] theorem loadKeys_keo (s : State) (k : SessionKeys) :
    (s.loadKeys k).keo = k.keo := rfl
@[simp] theorem loadKeys_kmi (s : State) (k : SessionKeys) :
    (s.loadKeys k).kmi = k.kmi := rfl
@[simp] theorem loadKeys_kmo (s : State) (k : SessionKeys) :
    (s.loadKeys k).kmo = k.kmo := rfl
@[simp] theorem loadKeys_ctri (s : State) (k : SessionKeys) :
    (s.loadKeys k).ctri = k.ivi := rfl
@[simp] theorem loadKeys_ctro (s : State) (k : SessionKeys) :
    (s.loadKeys k).ctro = k.ivo := rfl
@[simp] theorem loadKeys_valid (s : State) (k : SessionKeys) :
    (s.loadKeys k).valid = true := rfl
@[simp] theorem loadKeys_phase (s : State) (k : SessionKeys) :
    (s.loadKeys k).phase = .idle := rfl
@[simp] theorem loadKeys_status (s : State) (k : SessionKeys) :
    (s.loadKeys k).status = s.status := rfl
@[simp] theorem loadKeys_cap (s : State) (k : SessionKeys) :
    (s.loadKeys k).cap = s.cap := rfl
@[simp] theorem loadKeys_mem (s : State) (k : SessionKeys) :
    (s.loadKeys k).mem = s.mem := rfl
@[simp] theorem loadKeys_inputs (s : State) (k : SessionKeys) :
    (s.loadKeys k).inputs = s.inputs := rfl
@[simp] theorem loadKeys_result (s : State) (k : SessionKeys) :
    (s.loadKeys k).result = s.result := rfl

/-! ## `post` -/

@[simp] theorem post_kei (s : State) (r : Result) :
    (s.post r).kei = s.kei := rfl
@[simp] theorem post_keo (s : State) (r : Result) :
    (s.post r).keo = s.keo := rfl
@[simp] theorem post_kmi (s : State) (r : Result) :
    (s.post r).kmi = s.kmi := rfl
@[simp] theorem post_kmo (s : State) (r : Result) :
    (s.post r).kmo = s.kmo := rfl
@[simp] theorem post_ctri (s : State) (r : Result) :
    (s.post r).ctri = s.ctri := rfl
@[simp] theorem post_ctro (s : State) (r : Result) :
    (s.post r).ctro = s.ctro := rfl
@[simp] theorem post_valid (s : State) (r : Result) :
    (s.post r).valid = s.valid := rfl
@[simp] theorem post_phase (s : State) (r : Result) :
    (s.post r).phase = s.phase := rfl
@[simp] theorem post_status (s : State) (r : Result) :
    (s.post r).status = r.status := rfl
@[simp] theorem post_cap (s : State) (r : Result) :
    (s.post r).cap = s.cap := rfl
@[simp] theorem post_mem (s : State) (r : Result) :
    (s.post r).mem = s.mem := rfl
@[simp] theorem post_inputs (s : State) (r : Result) :
    (s.post r).inputs = s.inputs := rfl
@[simp] theorem post_result (s : State) (r : Result) :
    (s.post r).result = some r := rfl

/-! ## `fail` -/

@[simp] theorem fail_kei (s : State) (wr : BitVec 32) (f : Failure) :
    (s.fail wr f).kei = s.kei := rfl
@[simp] theorem fail_keo (s : State) (wr : BitVec 32) (f : Failure) :
    (s.fail wr f).keo = s.keo := rfl
@[simp] theorem fail_kmi (s : State) (wr : BitVec 32) (f : Failure) :
    (s.fail wr f).kmi = s.kmi := rfl
@[simp] theorem fail_kmo (s : State) (wr : BitVec 32) (f : Failure) :
    (s.fail wr f).kmo = s.kmo := rfl
@[simp] theorem fail_ctri (s : State) (wr : BitVec 32) (f : Failure) :
    (s.fail wr f).ctri = s.ctri := rfl
@[simp] theorem fail_ctro (s : State) (wr : BitVec 32) (f : Failure) :
    (s.fail wr f).ctro = s.ctro := rfl
@[simp] theorem fail_valid (s : State) (wr : BitVec 32) (f : Failure) :
    (s.fail wr f).valid = s.valid := rfl
@[simp] theorem fail_phase (s : State) (wr : BitVec 32) (f : Failure) :
    (s.fail wr f).phase = s.phase := rfl
@[simp] theorem fail_status (s : State) (wr : BitVec 32) (f : Failure) :
    (s.fail wr f).status = f.code := rfl
@[simp] theorem fail_cap (s : State) (wr : BitVec 32) (f : Failure) :
    (s.fail wr f).cap = s.cap := rfl
@[simp] theorem fail_mem (s : State) (wr : BitVec 32) (f : Failure) :
    (s.fail wr f).mem = s.mem := rfl
@[simp] theorem fail_inputs (s : State) (wr : BitVec 32) (f : Failure) :
    (s.fail wr f).inputs = s.inputs := rfl
@[simp] theorem fail_result (s : State) (wr : BitVec 32) (f : Failure) :
    (s.fail wr f).result = some ⟨f.code, wr, [], f.info⟩ := rfl

/-! ## `succeed` -/

@[simp] theorem succeed_kei (s : State) (newwr : BitVec 32) (payload : List Byte) :
    (s.succeed newwr payload).kei = s.kei := rfl
@[simp] theorem succeed_keo (s : State) (newwr : BitVec 32) (payload : List Byte) :
    (s.succeed newwr payload).keo = s.keo := rfl
@[simp] theorem succeed_kmi (s : State) (newwr : BitVec 32) (payload : List Byte) :
    (s.succeed newwr payload).kmi = s.kmi := rfl
@[simp] theorem succeed_kmo (s : State) (newwr : BitVec 32) (payload : List Byte) :
    (s.succeed newwr payload).kmo = s.kmo := rfl
@[simp] theorem succeed_ctri (s : State) (newwr : BitVec 32) (payload : List Byte) :
    (s.succeed newwr payload).ctri = s.ctri := rfl
@[simp] theorem succeed_ctro (s : State) (newwr : BitVec 32) (payload : List Byte) :
    (s.succeed newwr payload).ctro = s.ctro := rfl
@[simp] theorem succeed_valid (s : State) (newwr : BitVec 32) (payload : List Byte) :
    (s.succeed newwr payload).valid = s.valid := rfl
@[simp] theorem succeed_phase (s : State) (newwr : BitVec 32) (payload : List Byte) :
    (s.succeed newwr payload).phase = s.phase := rfl
@[simp] theorem succeed_status (s : State) (newwr : BitVec 32) (payload : List Byte) :
    (s.succeed newwr payload).status = 0x00#8 := rfl
@[simp] theorem succeed_cap (s : State) (newwr : BitVec 32) (payload : List Byte) :
    (s.succeed newwr payload).cap = s.cap := rfl
@[simp] theorem succeed_mem (s : State) (newwr : BitVec 32) (payload : List Byte) :
    (s.succeed newwr payload).mem = s.mem := rfl
@[simp] theorem succeed_inputs (s : State) (newwr : BitVec 32) (payload : List Byte) :
    (s.succeed newwr payload).inputs = s.inputs := rfl
@[simp] theorem succeed_result (s : State) (newwr : BitVec 32) (payload : List Byte) :
    (s.succeed newwr payload).result = some ⟨0x00#8, newwr, payload, []⟩ := rfl

/-! ## `hostReset` -/

@[simp] theorem hostReset_kei (s : State) :
    (s.hostReset).kei = Config.resetRegisters.kei := rfl
@[simp] theorem hostReset_keo (s : State) :
    (s.hostReset).keo = Config.resetRegisters.keo := rfl
@[simp] theorem hostReset_kmi (s : State) :
    (s.hostReset).kmi = Config.resetRegisters.kmi := rfl
@[simp] theorem hostReset_kmo (s : State) :
    (s.hostReset).kmo = Config.resetRegisters.kmo := rfl
@[simp] theorem hostReset_ctri (s : State) :
    (s.hostReset).ctri = Config.resetRegisters.ctri := rfl
@[simp] theorem hostReset_ctro (s : State) :
    (s.hostReset).ctro = Config.resetRegisters.ctro := rfl
@[simp] theorem hostReset_valid (s : State) :
    (s.hostReset).valid = false := rfl
@[simp] theorem hostReset_phase (s : State) :
    (s.hostReset).phase = .idle := rfl
@[simp] theorem hostReset_status (s : State) :
    (s.hostReset).status = 0x00#8 := rfl
@[simp] theorem hostReset_cap (s : State) :
    (s.hostReset).cap = s.cap := rfl
@[simp] theorem hostReset_mem (s : State) :
    (s.hostReset).mem = s.mem := rfl
@[simp] theorem hostReset_inputs (s : State) :
    (s.hostReset).inputs = s.inputs := rfl
@[simp] theorem hostReset_result (s : State) :
    (s.hostReset).result = none := rfl

/-! ## `withFetchWord` -/

@[simp] theorem withFetchWord_kei (s : State) (nbits w : Nat) :
    (s.withFetchWord nbits w).kei = s.kei := rfl
@[simp] theorem withFetchWord_keo (s : State) (nbits w : Nat) :
    (s.withFetchWord nbits w).keo = s.keo := rfl
@[simp] theorem withFetchWord_kmi (s : State) (nbits w : Nat) :
    (s.withFetchWord nbits w).kmi = s.kmi := rfl
@[simp] theorem withFetchWord_kmo (s : State) (nbits w : Nat) :
    (s.withFetchWord nbits w).kmo = s.kmo := rfl
@[simp] theorem withFetchWord_ctri (s : State) (nbits w : Nat) :
    (s.withFetchWord nbits w).ctri = s.ctri := rfl
@[simp] theorem withFetchWord_ctro (s : State) (nbits w : Nat) :
    (s.withFetchWord nbits w).ctro = s.ctro := rfl
@[simp] theorem withFetchWord_valid (s : State) (nbits w : Nat) :
    (s.withFetchWord nbits w).valid = s.valid := rfl
@[simp] theorem withFetchWord_phase (s : State) (nbits w : Nat) :
    (s.withFetchWord nbits w).phase = s.phase := rfl
@[simp] theorem withFetchWord_status (s : State) (nbits w : Nat) :
    (s.withFetchWord nbits w).status = s.status := rfl
@[simp] theorem withFetchWord_cap (s : State) (nbits w : Nat) :
    (s.withFetchWord nbits w).cap = s.cap := rfl
@[simp] theorem withFetchWord_mem (s : State) (nbits w : Nat) :
    (s.withFetchWord nbits w).mem = s.mem := rfl
@[simp] theorem withFetchWord_inputs (s : State) (nbits w : Nat) :
    (s.withFetchWord nbits w).inputs = .command (descriptorOfWord nbits w) :: s.inputs := rfl
@[simp] theorem withFetchWord_result (s : State) (nbits w : Nat) :
    (s.withFetchWord nbits w).result = s.result := rfl

end Sys2Proof.Machine
end

