-- ==== Sys2Proof/Laws/Commands.lean ====
section
/-! SUPPORT. For each shared operation and each command: once, everything it can do. -/

namespace Sys2Proof.Machine

open Sys2Proof.Config (Primitives)

theorem wellFormed_iff (i : Instr) (cap : Nat) :
    i.wellFormed cap = true ↔ i.rd.toNat ≤ i.wr.toNat ∧ i.wr.toNat ≤ cap := by
  simp [Instr.wellFormed, Instr.windowOrdered, Instr.windowInside]

theorem sequence_of_wellFormed {i : Instr} {rule : State → Completion} {s : State} (h : i.wellFormed s.cap = true) :
    s.sequence i rule = (rule s).finish i.wr := by
  simp [State.sequence, h]

theorem sequence_of_malformed {i : Instr} {rule : State → Completion} {s : State} (h : i.wellFormed s.cap = false) :
    s.sequence i rule = s.fail i.wr .illegalCommand := by
  simp [State.sequence, h, Completion.finish]

/-- The key material of a window is read, or one of two failures is raised. -/
theorem windowKeys_error {rd wr : BitVec 32} {s : State} {f : Failure} (h : windowKeys rd wr s = .error f) :
    f = .argumentError ∨ f = .invalidKeySize := by
  unfold windowKeys at h
  split at h
  · rename_i g hg
    cases h
    unfold parseKeys at hg
    split at hg
    · cases hg; exact .inl rfl
    · dsimp only at hg
      split at hg
      · cases hg; exact .inl rfl
      · cases hg
  · unfold validateKeys at h
    split at h
    · cases h
    · cases h; exact .inr rfl

/-- INIT: refused mid-packet, turned away by the sequencer, failed with the state unchanged, or loaded. -/
theorem execInit_cases (rd wr : BitVec 32) (s : State) :
    (replacesMidPacket (.init rd wr) s = true ∧ execInit rd wr s = .refused .keyReplacementMidPacket) ∨
    (∃ f, (f = .illegalCommand ∨ f = .argumentError ∨ f = .invalidKeySize) ∧ execInit rd wr s = .next (s.fail wr f)) ∨
    (∃ k, windowKeys rd wr s = .ok k ∧ replacesMidPacket (.init rd wr) s = false ∧
      (Instr.init rd wr).wellFormed s.cap = true ∧ execInit rd wr s = .next ((s.loadKeys k).succeed wr [])) := by
  unfold execInit
  by_cases hm : replacesMidPacket (.init rd wr) s = true
  · exact .inl ⟨hm, by simp [hm]⟩
  · rw [Bool.not_eq_true] at hm
    right
    by_cases hw : (Instr.init rd wr).wellFormed s.cap = true
    · rw [sequence_of_wellFormed hw]
      cases hk : windowKeys rd wr s with
      | error f =>
        refine .inl ⟨f, .inr (windowKeys_error hk), ?_⟩
        simp [hm, initRule, hk, Completion.finish, Instr.wr]
      | ok k =>
        refine .inr ⟨k, rfl, hm, hw, ?_⟩
        simp [hm, initRule, hk, Completion.finish]
    · rw [Bool.not_eq_true] at hw
      refine .inl ⟨.illegalCommand, .inl rfl, ?_⟩
      simp [hm, sequence_of_malformed hw, Instr.wr]

/-- REKEY: refused mid-packet, failed with the state unchanged, or replaced. -/
theorem execRekey_cases (rd wr : BitVec 32) (s : State) :
    (replacesMidPacket (.rekey rd wr) s = true ∧ execRekey rd wr s = .refused .keyReplacementMidPacket) ∨
    (∃ f, (f = .illegalCommand ∨ f = .notInitialized ∨ f = .argumentError ∨ f = .invalidKeySize) ∧
      execRekey rd wr s = .next (s.fail wr f)) ∨
    (∃ k, windowKeys rd wr s = .ok k ∧ s.valid = true ∧ replacesMidPacket (.rekey rd wr) s = false ∧
      (Instr.rekey rd wr).wellFormed s.cap = true ∧ execRekey rd wr s = .next ((s.replaceKeys k).succeed wr [])) := by
  unfold execRekey
  by_cases hm : replacesMidPacket (.rekey rd wr) s = true
  · exact .inl ⟨hm, by simp [hm]⟩
  · rw [Bool.not_eq_true] at hm
    right
    by_cases hw : (Instr.rekey rd wr).wellFormed s.cap = true
    · rw [sequence_of_wellFormed hw]
      by_cases hv : s.valid = true
      · cases hk : windowKeys rd wr s with
        | error f =>
          refine .inl ⟨f, .inr (.inr (windowKeys_error hk)), ?_⟩
          simp [hm, rekeyRule, hv, hk, Completion.finish, Instr.wr]
        | ok k =>
          refine .inr ⟨k, rfl, hv, hm, hw, ?_⟩
          simp [hm, rekeyRule, hv, hk, Completion.finish]
      · refine .inl ⟨.notInitialized, .inr (.inl rfl), ?_⟩
        simp [hm, rekeyRule, hv, Completion.finish, Instr.wr]
    · rw [Bool.not_eq_true] at hw
      refine .inl ⟨.illegalCommand, .inl rfl, ?_⟩
      simp [hm, sequence_of_malformed hw, Instr.wr]

/-- The state after a successful DECFB, before its completion is latched. -/
def afterDecfb (ks : Bytes 16) (rd : BitVec 32) (s : State) : State :=
  { s with mem := s.mem.writeBytes rd.toNat (xorBytes (s.mem.readBytes rd.toNat 16) ks.toList)
           ctri := ctrInc s.ctri
           phase := .peeked }

/-- DECFB: failed with the state unchanged, or the first block decrypted. -/
theorem decfbUnder_cases (p : Primitives) (rd wr : BitVec 32) (s : State) :
    (∃ f, ((f = .illegalCommand ∧ (Instr.decfb rd wr).wellFormed s.cap = false) ∨
        (f = .notInitialized ∧ s.valid = false) ∨ (f = .argumentError ∧ windowSize rd wr < 16) ∨
        ∃ info, p.E s.kei s.ctri = .fail info ∧ f = .primitiveFailure info) ∧
      decfbUnder p rd wr s = .next (s.fail wr f)) ∨
    (∃ ks, p.E s.kei s.ctri = .ok ks ∧ s.valid = true ∧ 16 ≤ windowSize rd wr ∧ rd.toNat ≤ wr.toNat ∧
      wr.toNat ≤ s.cap ∧ decfbUnder p rd wr s = .next ((afterDecfb ks rd s).succeed wr [])) := by
  unfold decfbUnder
  by_cases hw : (Instr.decfb rd wr).wellFormed s.cap = true
  · rw [sequence_of_wellFormed hw]
    have hw' := (wellFormed_iff _ _).mp hw
    unfold decfbRule
    by_cases hv : s.valid = true
    · by_cases hn : windowSize rd wr < 16
      · exact .inl ⟨.argumentError, .inr (.inr (.inl ⟨rfl, hn⟩)), by simp [hv, hn, Completion.finish, Instr.wr]⟩
      · cases hE : p.E s.kei s.ctri with
        | fail info =>
          exact .inl ⟨.primitiveFailure info, .inr (.inr (.inr ⟨info, rfl, rfl⟩)),
            by simp [hv, hn, Completion.finish, Instr.wr]⟩
        | ok ks =>
          refine .inr ⟨ks, rfl, hv, by omega, hw'.1, hw'.2, ?_⟩
          simp [hv, hn, Completion.finish, afterDecfb]
    · exact .inl ⟨.notInitialized, .inr (.inl ⟨rfl, by simpa using hv⟩), by simp [hv, Completion.finish, Instr.wr]⟩
  · rw [Bool.not_eq_true] at hw
    exact .inl ⟨.illegalCommand, .inl ⟨rfl, hw⟩, by simp [sequence_of_malformed hw, Instr.wr]⟩

/-- How DECVF ends once the ciphertext is decrypted: `MAC` fails, the tags differ, the padding is wrong, or the payload
is released. -/
theorem decvfVerify_cases (p : Primitives) (wr seq : BitVec 32) (P T : List Byte) (s : State) :
    (∃ info, p.MAC s.kmi (macMsgIn seq (BitVec.ofNat 32 (be (slice P 0 4))) P) = .fail info ∧
      decvfVerify p wr seq P T s = .raised s (.primitiveFailure info)) ∨
    (∃ X, p.MAC s.kmi (macMsgIn seq (BitVec.ofNat 32 (be (slice P 0 4))) P) = .ok X ∧
      ((tagEq X T = false ∧ decvfVerify p wr seq P T s = .raised s .tagMismatch) ∨
       (∃ f, tagEq X T = true ∧ stripPadding P = .error f ∧ decvfVerify p wr seq P T s = .raised s f) ∨
       (∃ payload, tagEq X T = true ∧ stripPadding P = .ok payload ∧
          decvfVerify p wr seq P T s = .done s wr payload))) := by
  unfold decvfVerify
  cases hM : p.MAC s.kmi (macMsgIn seq (BitVec.ofNat 32 (be (slice P 0 4))) P) with
  | fail info => exact .inl ⟨info, rfl, rfl⟩
  | ok X =>
    refine .inr ⟨X, rfl, ?_⟩
    by_cases hX : tagEq X T = true
    · cases hs : stripPadding P with
      | error f => exact .inr (.inl ⟨f, hX, rfl, by simp [hX]⟩)
      | ok payload => exact .inr (.inr ⟨payload, hX, rfl, by simp [hX]⟩)
    · rw [Bool.not_eq_true] at hX
      exact .inl ⟨hX, by simp [hX]⟩

/-- The state of DECVF with the writes that stay. -/
def afterDecvf (c : Bytes 16) (s : State) : State := { s with phase := .idle, ctri := c }

/-- DECVF: turned away with the state unchanged; stopped by the cipher part-way; or decrypted, and then ended as
`decvfVerify` ends. -/
theorem decvfUnder_cases (p : Primitives) (rd wr seq : BitVec 32) (s : State) :
    (∃ f, ((f = .illegalCommand ∧ (Instr.decvf rd wr seq).wellFormed s.cap = false) ∨
        (f = .notInitialized ∧ s.valid = false) ∨ (f = .argumentError ∧ windowSize rd wr < 48)) ∧
      decvfUnder p rd wr seq s = .next (s.fail wr f)) ∨
    (s.valid = true ∧ 48 ≤ windowSize rd wr ∧ rd.toNat ≤ wr.toNat ∧ wr.toNat ≤ s.cap ∧
      ((∃ info c, ctrCrypt (p.E s.kei) s.ctri (s.mem.readBytes (rd.toNat + 16) (windowSize rd wr - 48)) = .failed info c ∧
        decvfUnder p rd wr seq s = .next ((afterDecvf c s).fail wr (.primitiveFailure info))) ∨
       (∃ rest c, ctrCrypt (p.E s.kei) s.ctri (s.mem.readBytes (rd.toNat + 16) (windowSize rd wr - 48)) = .done rest c ∧
        decvfUnder p rd wr seq s = .next ((decvfVerify p wr seq (s.mem.readBytes rd.toNat 16 ++ rest)
          (s.mem.readBytes (rd.toNat + windowSize rd wr - 32) 32) (afterDecvf c s)).finish wr)))) := by
  unfold decvfUnder
  by_cases hw : (Instr.decvf rd wr seq).wellFormed s.cap = true
  · rw [sequence_of_wellFormed hw]
    have hw' := (wellFormed_iff _ _).mp hw
    unfold decvfRule
    by_cases hv : s.valid = true
    · by_cases hn : windowSize rd wr < 48
      · exact .inl ⟨.argumentError, .inr (.inr ⟨rfl, hn⟩), by simp [hv, hn, Completion.finish, Instr.wr]⟩
      · have hv' : ¬ s.valid = false := by simp [hv]
        refine .inr ⟨hv, by omega, hw'.1, hw'.2, ?_⟩
        cases hc : ctrCrypt (p.E s.kei) s.ctri (s.mem.readBytes (rd.toNat + 16) (windowSize rd wr - 48)) with
        | failed info c =>
          refine .inl ⟨info, c, rfl, ?_⟩
          simp only [if_neg hv', if_neg hn, hc]
          rfl
        | done rest c =>
          refine .inr ⟨rest, c, rfl, ?_⟩
          simp only [if_neg hv', if_neg hn, hc]
          rfl
    · exact .inl ⟨.notInitialized, .inr (.inl ⟨rfl, by simpa using hv⟩), by simp [hv, Completion.finish, Instr.wr]⟩
  · rw [Bool.not_eq_true] at hw
    exact .inl ⟨.illegalCommand, .inl ⟨rfl, hw⟩, by simp [sequence_of_malformed hw, Instr.wr]⟩

/-- The state after a successful ENC, before its completion is latched. -/
def afterEnc (C T : List Byte) (c : Bytes 16) (rd wr : BitVec 32) (s : State) : State :=
  { s with mem := (s.mem.writeBytes rd.toNat C).writeBytes wr.toNat T, ctro := c }

/-- ENC: failed with the state unchanged, or encrypted with the tag appended. -/
theorem encUnder_cases (p : Primitives) (rd wr seq : BitVec 32) (s : State) :
    (∃ f, ((f = .illegalCommand ∧ (Instr.enc rd wr seq).wellFormed s.cap = false) ∨
        (f = .notInitialized ∧ s.valid = false) ∨ (f = .argumentError ∧ s.cap < wr.toNat + 32) ∨
        (f = .internalInvariant ∧ ∃ T, p.MAC s.kmo (macMsgOut seq (s.mem.readBytes rd.toNat (windowSize rd wr))) = .ok T ∧
          T.length ≠ 32) ∨
        (∃ info, f = .primitiveFailure info ∧
          (p.MAC s.kmo (macMsgOut seq (s.mem.readBytes rd.toNat (windowSize rd wr))) = .fail info ∨
            ∃ c, ctrCrypt (p.E s.keo) s.ctro (s.mem.readBytes rd.toNat (windowSize rd wr)) = .failed info c))) ∧
      encUnder p rd wr seq s = .next (s.fail wr f)) ∨
    (∃ T C c, p.MAC s.kmo (macMsgOut seq (s.mem.readBytes rd.toNat (windowSize rd wr))) = .ok T ∧ T.length = 32 ∧
      ctrCrypt (p.E s.keo) s.ctro (s.mem.readBytes rd.toNat (windowSize rd wr)) = .done C c ∧ s.valid = true ∧
      rd.toNat ≤ wr.toNat ∧ wr.toNat + 32 ≤ s.cap ∧
      encUnder p rd wr seq s = .next ((afterEnc C T c rd wr s).succeed (newWr wr) [])) := by
  unfold encUnder
  by_cases hw : (Instr.enc rd wr seq).wellFormed s.cap = true
  · rw [sequence_of_wellFormed hw]
    have hw' := (wellFormed_iff _ _).mp hw
    unfold encRule
    by_cases hv : s.valid = true
    · by_cases hn : s.cap < wr.toNat + 32
      · exact .inl ⟨.argumentError, .inr (.inr (.inl ⟨rfl, hn⟩)), by simp [hv, hn, Completion.finish, Instr.wr]⟩
      · cases hM : p.MAC s.kmo (macMsgOut seq (s.mem.readBytes rd.toNat (windowSize rd wr))) with
        | fail info =>
          exact .inl ⟨.primitiveFailure info, .inr (.inr (.inr (.inr ⟨info, rfl, .inl rfl⟩))),
            by simp [hv, hn, hM, Completion.finish, Instr.wr]⟩
        | ok T =>
          by_cases hT : T.length = 32
          · cases hc : ctrCrypt (p.E s.keo) s.ctro (s.mem.readBytes rd.toNat (windowSize rd wr)) with
            | failed info c =>
              exact .inl ⟨.primitiveFailure info, .inr (.inr (.inr (.inr ⟨info, rfl, .inr ⟨c, rfl⟩⟩))),
                by simp [hv, hn, hM, hT, hc, Completion.finish, Instr.wr]⟩
            | done C c =>
              refine .inr ⟨T, C, c, rfl, hT, rfl, hv, hw'.1, by omega, ?_⟩
              simp [hv, hn, hM, hT, hc, Completion.finish, afterEnc]
          · exact .inl ⟨.internalInvariant, .inr (.inr (.inr (.inl ⟨rfl, T, rfl, hT⟩))),
              by simp [hv, hn, hM, hT, Completion.finish, Instr.wr]⟩
    · exact .inl ⟨.notInitialized, .inr (.inl ⟨rfl, by simpa using hv⟩), by simp [hv, Completion.finish, Instr.wr]⟩
  · rw [Bool.not_eq_true] at hw
    exact .inl ⟨.illegalCommand, .inl ⟨rfl, hw⟩, by simp [sequence_of_malformed hw, Instr.wr]⟩

/-- A step: nothing pending; an illegal descriptor; a command; a reset; a store. -/
theorem step_cases (s : State) :
    (s.inputs = [] ∧ step s = .next s) ∨
    (∃ d rest e, s.inputs = .command d :: rest ∧ decode d.toList = .error e ∧
      step s = .next (({ s with inputs := rest } : State).fail (fieldWr d.toList) .illegalCommand)) ∨
    (∃ d rest i, s.inputs = .command d :: rest ∧ decode d.toList = .ok i ∧
      step s = exec i { s with inputs := rest }) ∨
    (∃ rest, s.inputs = .reset :: rest ∧ step s = .next ({ s with inputs := rest } : State).hostReset) ∨
    (∃ off bytes rest, s.inputs = .store off bytes :: rest ∧ off + bytes.length ≤ s.cap ∧
      step s = .next { s with inputs := rest, mem := s.mem.writeBytes off bytes }) ∨
    (∃ off bytes rest, s.inputs = .store off bytes :: rest ∧ s.cap < off + bytes.length ∧
      step s = .fault .hostStoreOutsideBuffer) := by
  cases hi : s.inputs with
  | nil => exact .inl ⟨rfl, by simp [step, stepInput, hi]⟩
  | cons h rest =>
    right
    cases h with
    | command d =>
      cases hd : decode d.toList with
      | error e =>
        exact .inl ⟨d, rest, e, rfl, hd, by simp [step, stepInput, runInput, runDescriptor, hi, hd]⟩
      | ok i =>
        exact .inr (.inl ⟨d, rest, i, rfl, hd, by simp [step, stepInput, runInput, runDescriptor, hi, hd]⟩)
    | reset => exact .inr (.inr (.inl ⟨rest, rfl, by simp [step, stepInput, runInput, hi]⟩))
    | store off bytes =>
      by_cases hb : off + bytes.length ≤ s.cap
      · exact .inr (.inr (.inr (.inl ⟨off, bytes, rest, rfl, hb,
          by simp [step, stepInput, runInput, State.hostStore, hi, hb]⟩)))
      · exact .inr (.inr (.inr (.inr ⟨off, bytes, rest, rfl, by omega,
          by simp [step, stepInput, runInput, State.hostStore, hi, hb]⟩)))

end Sys2Proof.Machine
end

