-- ==== Sys2Proof/Laws/Operands.lean ====
section
/-! SUPPORT. The operands of INIT and REKEY: what `parseKeys`, `validateKeys` and `windowKeys` answer. -/

namespace Sys2Proof.Machine

theorem length_block (k : KeyMaterial) :
    k.block.length = 4 + k.kei.length + k.keo.length + k.kmi.length + k.kmo.length + 32 := by
  simp [KeyMaterial.block]
  omega

/-- A range that reads as two strings reads as each of them in its place. -/
theorem readBytes_eq_append {m : Memory} {off n : Nat} {a b : List Byte} (h : m.readBytes off n = a ++ b) :
    m.readBytes off a.length = a ∧ m.readBytes (off + a.length) b.length = b := by
  have hn : n = a.length + b.length := by
    have := congrArg List.length h
    simpa [Memory.length_readBytes] using this
  rw [hn, Memory.readBytes_append] at h
  exact List.append_inj h (by simp [Memory.length_readBytes])

theorem readVec_of_readBytes {m : Memory} {off n : Nat} {v : Bytes n} (h : m.readBytes off n = v.toList) :
    m.readVec off n = v :=
  Vector.toList_inj.mp h

/-- A window that holds the key block of some material parses to it. -/
theorem parseKeys_of_block {m : Memory} {rd N : Nat} {k : KeyMaterial} (h : m.readBytes rd N = k.block)
    (he : k.Expressible) : parseKeys m rd N = .ok k := by
  have hN : N = 4 + k.kei.length + k.keo.length + k.kmi.length + k.kmo.length + 32 := by
    have := congrArg List.length h
    rwa [Memory.length_readBytes, length_block] at this
  obtain ⟨h1, h2, h3, h4⟩ := he
  unfold KeyMaterial.block at h
  obtain ⟨h, hivo⟩ := readBytes_eq_append h
  obtain ⟨h, hivi⟩ := readBytes_eq_append h
  obtain ⟨h, hkmo⟩ := readBytes_eq_append h
  obtain ⟨h, hkmi⟩ := readBytes_eq_append h
  obtain ⟨h, hkeo⟩ := readBytes_eq_append h
  obtain ⟨hl, hkei⟩ := readBytes_eq_append h
  simp only [List.length_cons, List.length_nil, Memory.readBytes, List.cons.injEq, Nat.zero_add] at hl
  obtain ⟨l0, l1, l2, l3, _⟩ := hl
  have t : ∀ n, n ≤ 255 → (BitVec.ofNat 8 n).toNat = n := by
    intro n hn
    simp
    omega
  unfold parseKeys
  rw [if_neg (by omega)]
  dsimp only
  rw [l0, show rd + 2 = rd + 1 + 1 by omega, show rd + 3 = rd + 1 + 1 + 1 by omega, l1, l2, l3, t _ h1, t _ h2, t _ h3,
    t _ h4, if_neg (by omega)]
  simp only [List.length_append, List.length_cons, List.length_nil, Vector.length_toList, Nat.zero_add,
    Nat.reduceAdd] at hkei hkeo hkmi hkmo hivi hivo
  simp only [← Nat.add_assoc] at hkei hkeo hkmi hkmo hivi hivo ⊢
  rw [hkei, hkeo, hkmi, hkmo, readVec_of_readBytes hivi, readVec_of_readBytes hivo]

/-- What a window parses to is material whose key block it holds. -/
theorem block_of_parseKeys {m : Memory} {rd N : Nat} {k : KeyMaterial} (h : parseKeys m rd N = .ok k) :
    m.readBytes rd N = k.block ∧ k.Expressible := by
  unfold parseKeys at h
  split at h
  · cases h
  · dsimp only at h
    split at h
    · cases h
    · rename_i h4 hN
      simp only [ne_eq, not_not] at hN
      have le : ∀ b : Byte, b.toNat ≤ 255 := fun b => by
        have := b.isLt
        omega
      have back : ∀ b : Byte, BitVec.ofNat 8 b.toNat = b := fun b => by simp
      have vec : ∀ off n, (m.readVec off n).toList = m.readBytes off n := fun _ _ => rfl
      cases h
      refine ⟨?_, by simp [Memory.length_readBytes, le], by simp [Memory.length_readBytes, le],
        by simp [Memory.length_readBytes, le], by simp [Memory.length_readBytes, le]⟩
      unfold KeyMaterial.block
      simp only [Memory.length_readBytes]
      rw [hN]
      simp only [back]
      generalize (m.read rd).toNat = a
      generalize (m.read (rd + 1)).toNat = b
      generalize (m.read (rd + 2)).toNat = c
      generalize (m.read (rd + 3)).toNat = d
      rw [show 4 + a + b + c + d + 32 = 4 + a + b + c + d + 16 + 16 by omega]
      simp only [Memory.readBytes_append, vec, ← Nat.add_assoc]
      congr 1

theorem validateKeys_material (k : SessionKeys) : validateKeys k.material = .ok k := by
  unfold validateKeys SessionKeys.material
  simp [bytesOfList?_toList]

theorem validateKeys_of_not_wellSized {k : KeyMaterial} (h : ¬ k.WellSized) :
    validateKeys k = .error .invalidKeySize := by
  unfold validateKeys
  split
  · rename_i h1 h2 h3 h4
    exact absurd ⟨(toList_of_bytesOfList? h1).2, (toList_of_bytesOfList? h2).2, (toList_of_bytesOfList? h3).2,
      (toList_of_bytesOfList? h4).2⟩ h
  · rfl

theorem material_of_validateKeys {k : KeyMaterial} {v : SessionKeys} (h : validateKeys k = .ok v) :
    v.material = k := by
  unfold validateKeys at h
  split at h
  · rename_i h1 h2 h3 h4
    cases h
    cases k
    simp only [SessionKeys.material, KeyMaterial.mk.injEq]
    exact ⟨(toList_of_bytesOfList? h1).1, (toList_of_bytesOfList? h2).1, (toList_of_bytesOfList? h3).1,
      (toList_of_bytesOfList? h4).1, trivial, trivial⟩
  · cases h

theorem material_expressible (k : SessionKeys) : k.material.Expressible := by
  simp [SessionKeys.material, KeyMaterial.Expressible]

/-- A window gives checked key material exactly when it holds that material's key block. -/
theorem windowKeys_ok_iff {rd wr : BitVec 32} {s : State} {k : SessionKeys} :
    windowKeys rd wr s = .ok k ↔ s.Holds rd wr k.material := by
  unfold windowKeys State.Holds
  constructor
  · intro h
    split at h
    · cases h
    · rename_i km hp
      rw [material_of_validateKeys h]
      exact (block_of_parseKeys hp).1
  · intro h
    rw [parseKeys_of_block h (material_expressible k)]
    exact validateKeys_material k

/-- The mid-packet test fails off a peeked, initialised engine. -/
theorem replacesMidPacket_eq_false {i : Instr} {s : State} (h : ¬ (s.valid = true ∧ s.phase = .peeked)) :
    replacesMidPacket i s = false := by
  unfold replacesMidPacket
  cases hv : s.valid <;> cases hp : s.phase <;> simp_all

end Sys2Proof.Machine
end

