-- ==== Sys2Proof/Laws/PerInstr.lean ====
section
/-! SUPPORT. What is said of every command, one lemma for each: the shape of its descriptor (30_encoding.md R71). -/

namespace Sys2Proof.Laws

/-- The descriptor of a command is 16 bytes; its opcode is one of the five, `RSV` is zero, `RD` and `WR` stand in their
places, and `SEQ` is zero where the command takes none. -/
def EncodingShape.Statement (i : Instr) : Prop :=
  (encode i).length = 16 ∧ 1 ≤ be (slice (encode i) 0 1) ∧ be (slice (encode i) 0 1) ≤ 5 ∧
  be (slice (encode i) 1 4) = 0 ∧ slice (encode i) 8 12 = be32 i.rd ∧ slice (encode i) 12 16 = be32 i.wr ∧
  (i.takesSeq = false → slice (encode i) 4 8 = [0x00#8, 0x00#8, 0x00#8, 0x00#8])

theorem EncodingShape.init (rd wr : BitVec 32) : EncodingShape.Statement (.init rd wr) :=
  ⟨rfl, (by decide : 1 ≤ be [1#8]), (by decide : be [1#8] ≤ 5), (by decide : be [0#8, 0#8, 0#8] = 0), rfl, rfl,
    fun _ => rfl⟩

theorem EncodingShape.rekey (rd wr : BitVec 32) : EncodingShape.Statement (.rekey rd wr) :=
  ⟨rfl, (by decide : 1 ≤ be [2#8]), (by decide : be [2#8] ≤ 5), (by decide : be [0#8, 0#8, 0#8] = 0), rfl, rfl,
    fun _ => rfl⟩

theorem EncodingShape.decfb (rd wr : BitVec 32) : EncodingShape.Statement (.decfb rd wr) :=
  ⟨rfl, (by decide : 1 ≤ be [3#8]), (by decide : be [3#8] ≤ 5), (by decide : be [0#8, 0#8, 0#8] = 0), rfl, rfl,
    fun _ => rfl⟩

theorem EncodingShape.decvf (rd wr seq : BitVec 32) : EncodingShape.Statement (.decvf rd wr seq) :=
  ⟨rfl, (by decide : 1 ≤ be [4#8]), (by decide : be [4#8] ≤ 5), (by decide : be [0#8, 0#8, 0#8] = 0), rfl, rfl,
    fun h => by cases h⟩

theorem EncodingShape.enc (rd wr seq : BitVec 32) : EncodingShape.Statement (.enc rd wr seq) :=
  ⟨rfl, (by decide : 1 ≤ be [5#8]), (by decide : be [5#8] ≤ 5), (by decide : be [0#8, 0#8, 0#8] = 0), rfl, rfl,
    fun h => by cases h⟩

end Sys2Proof.Laws
end

