-- ==== Sys2Proof/Tests/Slice0.lean ====
section
/-! SUPPORT. The model's own tests. Expected values come from 95_test_vectors.md (the vector's name stands with each
test), under its TOY primitives and key fixtures; then one witness for every obligation that has hypotheses. -/

namespace Sys2Proof.Tests

-- The tests below are checked one after another: each would take a thread of its own.
set_option Elab.async false

open Sys2Proof Sys2Proof.Machine
open Sys2Proof.Config (Primitives PrimResult)

/-! ## Well-formedness (R75) -/

theorem test_wellFormed_whole_space : (Instr.enc 0#32 4096#32 7#32).wellFormed 4096 = true := by decide
theorem test_wellFormed_empty_window : (Instr.init 5#32 5#32).wellFormed 5 = true := by decide
/-- Q5. -/
theorem test_wellFormed_refuses_reader_past_writer : (Instr.decfb 32#32 16#32).windowOrdered = false := by decide
/-- Q6. -/
theorem test_wellFormed_refuses_window_past_cap : (Instr.decfb 0#32 4097#32).windowInside 4096 = false := by decide
theorem test_wellFormed_needs_both :
    (Instr.decfb 32#32 16#32).wellFormed 4096 = false ∧ (Instr.decfb 0#32 4097#32).wellFormed 4096 = false := by decide

/-! ## Descriptors, written out byte by byte from R71, R72 -/

/-- Program 1, command 1. -/
theorem test_decode_init :
    decode [0x01#8, 0, 0, 0, 0, 0, 0, 0, 0, 0, 0, 0, 0, 0, 0, 0x84#8] = .ok (.init 0#32 132#32) := by decide +kernel
/-- Program 3, command 3. -/
theorem test_decode_rekey :
    decode [0x02#8, 0, 0, 0, 0, 0, 0, 0, 0, 0, 0x04#8, 0, 0, 0, 0x04#8, 0x84#8] = .ok (.rekey 0x400#32 0x484#32) := by
  decide +kernel
/-- Q7: a `SEQ` field that is ignored. -/
theorem test_decode_decfb :
    decode [0x03#8, 0, 0, 0, 0xDE#8, 0xAD#8, 0xBE#8, 0xEF#8, 0, 0, 0x02#8, 0, 0, 0, 0x02#8, 0x10#8]
      = .ok (.decfb 0x200#32 0x210#32) := by decide +kernel
/-- Every field with four different bytes: the byte order of R71. -/
theorem test_decode_decvf :
    decode [0x04#8, 0, 0, 0, 0x11#8, 0x12#8, 0x13#8, 0x14#8, 0x21#8, 0x22#8, 0x23#8, 0x24#8, 0x31#8, 0x32#8, 0x33#8,
      0x34#8] = .ok (.decvf 0x21222324#32 0x31323334#32 0x11121314#32) := by decide +kernel
/-- Q8. -/
theorem test_decode_enc :
    decode [0x05#8, 0, 0, 0, 0, 0, 0, 0x07#8, 0, 0, 0, 0, 0, 0, 0, 0x10#8] = .ok (.enc 0#32 16#32 7#32) := by
  decide +kernel
/-- Q1, Q2, Q3. -/
theorem test_decode_refuses_reserved_opcodes :
    decode (List.replicate 16 0x00#8) = .error .reservedOpcode ∧
    decode (0x06#8 :: List.replicate 15 0x00#8) = .error .reservedOpcode ∧
    decode (0xFF#8 :: List.replicate 15 0x00#8) = .error .reservedOpcode := by decide +kernel
/-- Q4. -/
theorem test_decode_refuses_reserved_bits :
    decode [0x05#8, 0, 0, 0x01#8, 0, 0, 0, 0, 0, 0, 0, 0, 0, 0, 0, 0x10#8] = .error .reservedBits := by decide +kernel
theorem test_decode_refuses_other_lengths :
    decode (0x01#8 :: List.replicate 14 0x00#8) = .error .wrongLength ∧
    decode (0x01#8 :: List.replicate 16 0x00#8) = .error .wrongLength := by decide +kernel
/-- R82: the descriptor of `ENC 0, 16, 7`. -/
theorem test_encode_enc :
    encode (.enc 0#32 16#32 7#32) = [0x05#8, 0, 0, 0, 0, 0, 0, 0x07#8, 0, 0, 0, 0, 0, 0, 0, 0x10#8] := by decide +kernel
/-- The 128-bit word of Q8, byte 0 on top. -/
theorem test_decodeTableWord :
    decodeTableWord 128 0x05000000000000070000000000000010 = some (.enc 0#32 16#32 7#32) := by decide +kernel

/-! ## Fixtures (95_test_vectors.md, section 0) -/

/-- `MAC_T`: byte `j` of the message is XORed into byte `j mod 32` of the tag. -/
def foldTag : List Byte → Nat → List Byte → List Byte
  | tag, _, [] => tag
  | tag, j, b :: m => foldTag (tag.set (j % 32) (tag.getD (j % 32) 0#8 ^^^ b)) (j + 1) m

/-- `E_T` and `MAC_T`. -/
def toy : Primitives where
  E k c := .ok (Vector.zipWith (· ^^^ ·) k c)
  MAC k m := .ok (foldTag k.toList 0 m)

/-- `E_T`, but failing at one counter value (Y11). -/
def failingE (bad : Bytes 16) : Primitives where
  E k c := if c = bad then .fail [0xEE#8] else toy.E k c
  MAC := toy.MAC

/-- `MAC` always fails. -/
def failingMAC : Primitives where
  E := toy.E
  MAC _ _ := .fail [0xDD#8]

/-- `MAC` answers 31 bytes (Y12). -/
def shortMAC : Primitives where
  E := toy.E
  MAC _ _ := .ok (List.replicate 31 0x00#8)

def K1 : Bytes 16 := beVec 16 0x101112131415161718191A1B1C1D1E1F
def K2 : Bytes 16 := beVec 16 0x202122232425262728292A2B2C2D2E2F
def M1 : Bytes 32 := beVec 32 0x404142434445464748494A4B4C4D4E4F505152535455565758595A5B5C5D5E5F
def M2 : Bytes 32 := beVec 32 0x606162636465666768696A6B6C6D6E6F707172737475767778797A7B7C7D7E7F

/-- Bytes laid out from an offset on, in canonical form. -/
def image : Nat → List Byte → Memory
  | _, [] => []
  | a, b :: v => Memory.entry a b (image (a + 1) v)

/-- An initialised engine between packets. -/
def receiver (mem : Memory) : State :=
  { kei := K1, keo := K2, kmi := M1, kmo := M2, ctri := beVec 16 0, ctro := beVec 16 0x1FF, valid := true
    phase := .idle, status := 0x00#8, cap := 4096, mem := mem, inputs := [], result := none }

/-- Its peer. -/
def sender (mem : Memory) : State :=
  { receiver mem with kei := K2, keo := K1, kmi := M2, kmo := M1, ctri := beVec 16 0x1FF, ctro := beVec 16 0 }

/-- An engine after reset, with other register contents than zero. -/
def fresh (mem : Memory) : State := { receiver mem with valid := false }

/-- `Pa`: one block, payload `42`, `padlen` 10. -/
def Pa : List Byte := beBytes 16 0x0000000C0A4200000000000000000000
/-- The ciphertext of `Wa`. -/
def CA : List Byte := beBytes 16 0x1011121F1E57161718191A1B1C1D1E1F
/-- The tag of `Wa` (`SEQ = 0`). -/
def TA : List Byte := beBytes 32 0x404142434445464B420B4A4B4C4D4E4F505152535455565758595A5B5C5D5E5F
/-- X2 to X5: `00 00 00 0C`, a padding-length byte, eleven zero bytes: a frame as DECFB leaves it. -/
def frame (padlen : Byte) : List Byte := [0, 0, 0, 0x0C#8, padlen] ++ List.replicate 11 0x00#8
/-- The tag of `frame padlen` under `SEQ = 0`, as in X3, X4, X5. -/
def frameTag (padlen : Byte) : List Byte :=
  (beBytes 32 0x404142434445464B48494A4B4C4D4E4F505152535455565758595A5B5C5D5E5F).set 8 (0x48#8 ^^^ padlen)

/-- `kbB`: the key block of program 2. -/
def kbB : List Byte :=
  [0x10#8, 0x10#8, 0x20#8, 0x20#8] ++ K1.toList ++ K2.toList ++ M1.toList ++ M2.toList
    ++ (List.replicate 15 0xFF#8 ++ [0xFE#8]) ++ beBytes 16 0x1FF
/-- S2: an inbound encryption key of 15 bytes. -/
def kbShort : List Byte :=
  [0x0F#8, 0x10#8, 0x20#8, 0x20#8] ++ K1.toList.take 15 ++ K2.toList ++ M1.toList ++ M2.toList
    ++ List.replicate 16 0xAA#8 ++ List.replicate 16 0xBB#8
/-- The keys of `kbB`. -/
def keysB : SessionKeys := ⟨K1, K2, M1, M2, beVec 16 (2 ^ 128 - 2), beVec 16 0x1FF⟩
/-- The material of `kbShort`. -/
def shortMaterial : KeyMaterial :=
  ⟨K1.toList.take 15, K2.toList, M1.toList, M2.toList, Vector.replicate 16 0xAA#8, Vector.replicate 16 0xBB#8⟩

/-- An outcome is this next state. -/
def isNext (o : Host.Outcome State Fault Refusal) (t : State) : Bool :=
  match o with
  | .next s => decide (s = t)
  | .fault _ | .refused _ => false

theorem eq_next {o : Host.Outcome State Fault Refusal} {t : State} (h : isNext o t = true) : o = .next t := by
  unfold isNext at h
  split at h
  · rw [of_decide_eq_true h]
  · cases h
  · cases h

/-! ## The commands, one step each -/

/-- Program 2, command 1. -/
theorem test_init_loads :
    exec (.init 0#32 132#32) (fresh (image 0 kbB)) =
      .next { receiver (image 0 kbB) with
        ctri := beVec 16 (2 ^ 128 - 2), result := some ⟨0x00#8, 132#32, [], []⟩ } := eq_next (by decide +kernel)
/-- S2. -/
theorem test_init_refuses_15_byte_key :
    exec (.init 0#32 131#32) (fresh (image 0 kbShort)) =
      .next { fresh (image 0 kbShort) with status := 0x01#8, result := some ⟨0x01#8, 131#32, [], []⟩ } :=
  eq_next (by decide +kernel)
/-- S14, from the peer's keys and moved counters. -/
theorem test_rekey_replaces :
    exec (.rekey 0x400#32 0x484#32) { sender (image 0x400 kbB) with ctri := beVec 16 5, ctro := beVec 16 9 } =
      .next { receiver (image 0x400 kbB) with
        ctri := beVec 16 (2 ^ 128 - 2), result := some ⟨0x00#8, 0x484#32, [], []⟩ } := eq_next (by decide +kernel)
/-- S13; program 3, command 2. -/
theorem test_rekey_failure_keeps_session :
    exec (.rekey 0x400#32 0x483#32) (sender (image 0x400 kbShort)) =
      .next { sender (image 0x400 kbShort) with status := 0x01#8, result := some ⟨0x01#8, 0x483#32, [], []⟩ } :=
  eq_next (by decide +kernel)
/-- X1, with the frame's other bytes present (X21). -/
theorem test_decfb_patches_first_block :
    execUnder toy (.decfb 0x200#32 0x230#32) (receiver (image 0x200 (CA ++ TA))) =
      .next { receiver (image 0x200 (Pa ++ TA)) with
        ctri := beVec 16 1, phase := .peeked, result := some ⟨0x00#8, 0x230#32, [], []⟩ } :=
  eq_next (by decide +kernel)
/-- X15. -/
theorem test_decfb_needs_a_block :
    execUnder toy (.decfb 0x201#32 0x210#32) (receiver []) =
      .next { receiver [] with status := 0x02#8, result := some ⟨0x02#8, 0x210#32, [], []⟩ } :=
  eq_next (by decide +kernel)
/-- X13: the second block decrypted, the tag verified, 17 payload bytes. -/
theorem test_decvf_releases_payload :
    let mem := image 0x200 (beBytes 16 0x0000001C0A303132333435363738393A
      ++ beBytes 16 0x2B2D2F2D2B55161718191A1B1C1D1E1E
      ++ beBytes 32 0x404142444445465B42797B797F797B7967696B696F696B6967195A5B5C5D5E5F)
    execUnder toy (.decvf 0x200#32 0x240#32 7#32) { receiver mem with ctri := beVec 16 1, phase := .peeked } =
      .next { receiver mem with
        ctri := beVec 16 2, result := some ⟨0x00#8, 0x240#32, beBytes 17 0x303132333435363738393A3B3C3D3E3F40, []⟩ } :=
  eq_next (by decide +kernel)
/-- X18: without DECFB the first block is taken as plaintext. -/
theorem test_decvf_without_decfb_mismatches :
    execUnder toy (.decvf 0x200#32 0x230#32 0#32) (receiver (image 0x200 (CA ++ TA))) =
      .next { receiver (image 0x200 (CA ++ TA)) with status := 0x03#8, result := some ⟨0x03#8, 0x230#32, [], []⟩ } :=
  eq_next (by decide +kernel)
/-- Y8: up to the last byte of the buffer space. -/
theorem test_enc_appends_tag :
    execUnder toy (.enc 4048#32 4064#32 0#32) (sender (image 4048 Pa)) =
      .next { sender (image 4048 (CA ++ TA)) with
        ctro := beVec 16 1, result := some ⟨0x00#8, 4096#32, [], []⟩ } := eq_next (by decide +kernel)
/-- Y4: a 20-byte frame; the tail uses block 1 and is not counted. -/
theorem test_enc_tail_keeps_counter :
    execUnder toy (.enc 0x100#32 0x114#32 0#32)
        (sender (image 0x100 (beBytes 20 0x000000100A424344454600000000000000000000))) =
      .next { sender (image 0x100 (beBytes 20 0x101112031E5755535D5F1A1B1C1D1E1F10111213
          ++ beBytes 32 0x4041424344454657420B090F090B4E4F505152535455565758595A5B5C5D5E5F)) with
        ctro := beVec 16 1, result := some ⟨0x00#8, 0x134#32, [], []⟩ } := eq_next (by decide +kernel)
/-- Q9: after reset a well-formed DECFB is `NotInitialized`. -/
theorem test_step_from_reset :
    step (State.reset.withFetchWord 128 0x03000000000000000000000000000000) =
      .next { State.reset with status := 0x08#8, result := some ⟨0x08#8, 0#32, [], []⟩ } := by rfl

/-! ## The datapath -/

/-- P1, P2, P4, P8, P10. -/
theorem test_ctrInc :
    ctrIncBytes [0xFF#8, 0xFF#8] = [0, 0] ∧ ctrIncBytes [0x00#8, 0xFF#8] = [0x01#8, 0] ∧
    ctrIncBytes [0xFE#8, 0xFF#8] = [0xFF#8, 0] ∧ ctrIncBytes (List.replicate 16 0xFF#8) = List.replicate 16 0 ∧
    ctrIncBytes (List.replicate 7 0 ++ List.replicate 9 0xFF#8) =
      List.replicate 6 0 ++ [0x01#8] ++ List.replicate 9 0 := by decide +kernel
/-- P18: the counter wraps between two blocks. -/
theorem test_ctrCrypt_wraps :
    ctrCrypt (toy.E K1) (Vector.replicate 16 0xFF#8) (List.replicate 32 0x00#8) =
      .done (beBytes 16 0xEFEEEDECEBEAE9E8E7E6E5E4E3E2E1E0 ++ K1.toList) (beVec 16 1) := by decide +kernel
/-- P24 to P28. -/
theorem test_tagEq :
    tagEq TA TA = true ∧ tagEq TA (TA.set 0 0x41#8) = false ∧ tagEq TA (TA.set 31 0x5E#8) = false ∧
    tagEq (TA.take 31) TA = false := by decide +kernel
/-- P30, P33, P34, P35. -/
theorem test_stripPadding :
    (match stripPadding (frame 3#8) with | .error f => f = .insufficientPadding | .ok _ => False) ∧
    (match stripPadding (frame 11#8) with | .error _ => False | .ok p => p = []) ∧
    (match stripPadding (frame 12#8) with | .error f => f = .excessPadding | .ok _ => False) ∧
    (match stripPadding (frame 255#8) with | .error f => f = .excessPadding | .ok _ => False) :=
  ⟨rfl, rfl, rfl, rfl⟩

/-! ## Witnesses: a state and operands that meet the hypotheses of each statement -/

theorem witness_DecodedDescriptorIsItsEncoding :
    decode (encode (.enc 1#32 2#32 3#32)) = .ok (.enc 1#32 2#32 3#32) ∧
    decode ([0x03#8, 0, 0, 0, 0xDE#8, 0xAD#8, 0xBE#8, 0xEF#8] ++ List.replicate 8 0) = .ok (.decfb 0#32 0#32) := by
  decide +kernel

theorem witness_IgnoredSequenceFieldHasNoEffect :
    let d := [0x01#8, 0, 0, 0] ++ List.replicate 12 0x00#8
    let d' := [0x01#8, 0, 0, 0] ++ List.replicate 4 0xFF#8 ++ List.replicate 8 0x00#8
    d ≠ d' ∧ d.length = 16 ∧ d'.length = 16 ∧ slice d 0 4 = slice d' 0 4 ∧ slice d 8 16 = slice d' 8 16 ∧
    1 ≤ be (slice d 0 1) ∧ be (slice d 0 1) ≤ 3 := by decide

/-- Each of the four reasons of R159, at its boundary: `OP` 0 and 6, `RSV`, `RD = WR + 1`, `WR = CAP + 1`. -/
theorem witness_MalformedDescriptorIsIllegalCommand :
    ({ receiver [] with inputs := [.command (beVec 16 0)] } : State).inputs = .command (beVec 16 0) :: [] ∧
    ¬ 1 ≤ be (slice (beVec 16 0).toList 0 1) ∧
    ¬ be (slice (beVec 16 0x06000000000000000000000000000000).toList 0 1) ≤ 5 ∧
    be (slice (beVec 16 0x05000001000000000000000000000010).toList 1 4) = 1 ∧
    be (slice (beVec 16 0x03000000000000000000001100000010).toList 8 12) =
      be (slice (beVec 16 0x03000000000000000000001100000010).toList 12 16) + 1 ∧
    be (slice (beVec 16 0x03000000000000000000000000001001).toList 12 16) = (receiver []).cap + 1 :=
  ⟨rfl, by decide +kernel, by decide +kernel, by decide +kernel, by decide +kernel, by decide +kernel⟩

theorem witness_MalformedWindowIsIllegalCommand :
    (Instr.enc 17#32 16#32 0#32).wr.toNat < (Instr.enc 17#32 16#32 0#32).rd.toNat ∧
    (receiver []).cap < (Instr.enc 0#32 4097#32 0#32).wr.toNat := by decide

theorem witness_StepRunsTheDecodedCommand :
    (State.reset.withFetchWord 128 0x05000000000000070000000000000010).inputs =
      .command (descriptorOfWord 128 0x05000000000000070000000000000010) :: [] ∧
    decode (descriptorOfWord 128 0x05000000000000070000000000000010).toList = .ok (.enc 0#32 16#32 7#32) :=
  ⟨rfl, by decide +kernel⟩

theorem witness_IdleEngineHoldsItsState : State.reset.inputs = [] := rfl

theorem witness_ResetDropsTheSession :
    ({ receiver [] with inputs := [.reset] } : State).inputs = .reset :: [] := rfl

/-- Up to the last byte of the buffer space, and one byte past it. -/
theorem witness_HostStoreWritesItsBytes :
    (receiver []).mem.wf = true ∧ 4094 + [0x01#8, 0x02#8].length ≤ (receiver []).cap ∧
    (receiver []).cap < 4095 + [0x01#8, 0x02#8].length ∧
    ({ receiver [] with inputs := [.store 4094 [0x01#8, 0x02#8]] } : State).inputs =
      .store 4094 [0x01#8, 0x02#8] :: [] := by
  decide +kernel

theorem holds_kbB (s : State) (h : s.mem = image 0 kbB) : s.Holds 0#32 132#32 keysB.material := by
  unfold State.Holds
  rw [h]
  decide +kernel

theorem holds_kbShort (s : State) (h : s.mem = image 0 kbShort) : s.Holds 0#32 131#32 shortMaterial := by
  unfold State.Holds
  rw [h]
  decide +kernel

theorem witness_InitLoadsTheKeyBlock :
    (0#32).toNat ≤ (132#32).toNat ∧ (132#32).toNat ≤ (fresh (image 0 kbB)).cap ∧
    (fresh (image 0 kbB)).Holds 0#32 132#32 keysB.material ∧
    ¬ ((fresh (image 0 kbB)).valid = true ∧ (fresh (image 0 kbB)).phase = .peeked) ∧
    (receiver (image 0 kbB)).Holds 0#32 132#32 keysB.material ∧
    ¬ ((receiver (image 0 kbB)).valid = true ∧ (receiver (image 0 kbB)).phase = .peeked) :=
  ⟨by decide, by decide, holds_kbB _ rfl, fun h => (by cases h.1), holds_kbB _ rfl, fun h => (by cases h.2)⟩

theorem witness_RekeyReplacesTheKeys :
    (0#32).toNat ≤ (132#32).toNat ∧ (132#32).toNat ≤ (sender (image 0 kbB)).cap ∧
    (sender (image 0 kbB)).Holds 0#32 132#32 keysB.material ∧ (sender (image 0 kbB)).valid = true ∧
    AtPacketBoundary (sender (image 0 kbB)) :=
  ⟨by decide, by decide, holds_kbB _ rfl, rfl, rfl⟩

theorem witness_WrongKeyLengthIsInvalidKeySize :
    (0#32).toNat ≤ (131#32).toNat ∧ (131#32).toNat ≤ (receiver (image 0 kbShort)).cap ∧ shortMaterial.Expressible ∧
    (receiver (image 0 kbShort)).Holds 0#32 131#32 shortMaterial ∧ ¬ shortMaterial.WellSized ∧
    (receiver (image 0 kbShort)).valid = true := by
  refine ⟨by decide, by decide, ?_, holds_kbShort _ rfl, fun h => absurd h.1 (by decide), rfl⟩
  unfold KeyMaterial.Expressible
  decide

/-- No key block fits a window of 35 bytes, one less than the shortest block; one byte too few for each of the other
commands. -/
theorem witness_TooSmallWindowIsArgumentError :
    (0#32).toNat ≤ (35#32).toNat ∧ (35#32).toNat ≤ (receiver []).cap ∧
    (¬ ∃ k : KeyMaterial, k.Expressible ∧ (receiver []).Holds 0#32 35#32 k) ∧ (receiver []).valid = true ∧
    windowSize 0#32 15#32 < 16 ∧ windowSize 0#32 47#32 < 48 ∧ (receiver []).cap < (4065#32).toNat + 32 := by
  refine ⟨by decide, by decide, ?_, rfl, by decide, by decide, by decide⟩
  rintro ⟨k, _, h⟩
  have hl := congrArg List.length h
  rw [Memory.length_readBytes] at hl
  simp [KeyMaterial.block, windowSize] at hl
  omega

theorem witness_UninitialisedEngineAnswersNotInitialized :
    (0#32).toNat ≤ (0#32).toNat ∧ (0#32).toNat ≤ State.reset.cap ∧ State.reset.valid = false :=
  ⟨Nat.le_refl _, Nat.zero_le _, rfl⟩

theorem witness_MidPacketKeyReplacementIsRefused :
    let s := { receiver (image 0 kbB) with phase := .peeked }
    (0#32).toNat ≤ (132#32).toNat ∧ (132#32).toNat ≤ s.cap ∧ s.Holds 0#32 132#32 keysB.material ∧ s.valid = true ∧
    s.phase = .peeked :=
  ⟨by decide, by decide, holds_kbB _ rfl, rfl, rfl⟩

theorem witness_InitOnInitialisedEngineIsRekey : (receiver []).valid = true := rfl

/-- The smallest window, up to `CAP`; `E` answers, `E` fails. -/
theorem witness_DecfbDecryptsTheFirstBlock :
    let s := receiver (image 4080 CA)
    (4080#32).toNat ≤ (4096#32).toNat ∧ (4096#32).toNat ≤ s.cap ∧ s.mem.wf = true ∧ s.valid = true ∧
    16 ≤ windowSize 4080#32 4096#32 ∧ toy.E s.kei s.ctri = .ok K1 ∧
    (failingE (beVec 16 0)).E s.kei s.ctri = .fail [0xEE#8] := by decide +kernel

/-- The smallest window, for each end of DECVF; a block more for the failing cipher. -/
theorem witness_DecvfVerifiesAndStrips :
    let s := fun padlen => receiver (image 0x200 (frame padlen ++ frameTag padlen))
    (0x200#32).toNat ≤ (0x230#32).toNat ∧ (0x230#32).toNat ≤ (s 11#8).cap ∧ (s 11#8).valid = true ∧
    48 ≤ windowSize 0x200#32 0x230#32 ∧
    ctrCrypt ((failingE (beVec 16 0)).E K1) (beVec 16 0) (List.replicate 16 0x00#8) = .failed [0xEE#8] (beVec 16 0) ∧
    ctrCrypt (toy.E K1) (beVec 16 0) [] = .done [] (beVec 16 0) ∧
    failingMAC.MAC M1 (be32 0#32 ++ (frame 11#8 ++ [])) = .fail [0xDD#8] ∧
    (∀ padlen ∈ [3#8, 4#8, 11#8, 12#8],
      (s padlen).mem.readBytes 0x200 16 = frame padlen ∧ (s padlen).mem.readBytes 0x210 32 = frameTag padlen ∧
      ((s padlen).mem.read 0x204) = padlen ∧ toy.MAC M1 (be32 0#32 ++ (frame padlen ++ [])) = .ok (frameTag padlen) ∧
      toy.MAC M1 (be32 1#32 ++ (frame padlen ++ [])) ≠ .ok (frameTag padlen)) := by decide +kernel

/-- Room for exactly the tag; each way ENC ends. -/
theorem witness_EncEncryptsAndAppendsTheTag :
    let s := sender (image 4048 Pa)
    (4048#32).toNat ≤ (4064#32).toNat ∧ s.mem.wf = true ∧ s.valid = true ∧ (4064#32).toNat + 32 ≤ s.cap ∧
    s.mem.readBytes 4048 (windowSize 4048#32 4064#32) = Pa ∧
    failingMAC.MAC s.kmo (be32 0#32 ++ Pa) = .fail [0xDD#8] ∧
    (∃ T, shortMAC.MAC s.kmo (be32 0#32 ++ Pa) = .ok T ∧ T.length ≠ 32) ∧
    toy.MAC s.kmo (be32 0#32 ++ Pa) = .ok TA ∧ TA.length = 32 ∧
    ctrCrypt ((failingE (beVec 16 0)).E s.keo) s.ctro Pa = .failed [0xEE#8] (beVec 16 0) ∧
    ctrCrypt (toy.E s.keo) s.ctro Pa = .done CA (beVec 16 1) := by
  refine ⟨by decide, by decide +kernel, rfl, by decide, by decide +kernel, rfl, ⟨_, rfl, by decide⟩, ?_⟩
  decide +kernel

/-- Y11: the cipher fails on the second block, after the tag has been computed. -/
theorem witness_FailedEncChangesNothing :
    execUnder (failingE (beVec 16 1)) (.enc 0x100#32 0x120#32 0#32) (sender []) =
      .next { sender [] with status := 0x06#8, result := some ⟨0x06#8, 0x120#32, [], [0xEE#8]⟩ } ∧
    (0x06#8 : BitVec 8) ≠ 0x00#8 := ⟨eq_next (by decide +kernel), by decide⟩

theorem witness_EncOutputIsAFunctionOfItsInputs :
    let s := sender (image 4048 Pa)
    let s' := { sender (image 0x101 Pa) with kei := K1, ctri := beVec 16 3, phase := .peeked, status := 0x03#8 }
    (4048#32).toNat ≤ (4064#32).toNat ∧ (0x101#32).toNat ≤ (0x111#32).toNat ∧ (4064#32).toNat + 32 ≤ s.cap ∧
    (0x111#32).toNat + 32 ≤ s'.cap ∧ s.mem.wf = true ∧ s'.mem.wf = true ∧ s.valid = s'.valid ∧ s.keo = s'.keo ∧
    s.kmo = s'.kmo ∧ s.ctro = s'.ctro ∧
    s.mem.readBytes (4048#32).toNat (windowSize 4048#32 4064#32)
      = s'.mem.readBytes (0x101#32).toNat (windowSize 0x101#32 0x111#32) ∧
    execUnder toy (.enc 4048#32 4064#32 0#32) s =
      .next { sender (image 4048 (CA ++ TA)) with
        ctro := beVec 16 1, result := some ⟨0x00#8, 4096#32, [], []⟩ } :=
  ⟨by decide, by decide, by decide, by decide, by decide +kernel, by decide +kernel, rfl, rfl, rfl, rfl,
    by decide +kernel, test_enc_appends_tag⟩

/-- DECVF ends with success, `InsufficientPadding`, `ExcessPadding`; in the success some payload is released. -/
theorem witness_OnlyAuthenticFramesPassTheTag :
    (∀ c ∈ [(10#8, 0x00#8, [0x00#8]), (3#8, 0x04#8, []), (12#8, 0x05#8, [])],
      execUnder toy (.decvf 0x200#32 0x230#32 0#32) (receiver (image 0x200 (frame c.1 ++ frameTag c.1))) =
        .next { receiver (image 0x200 (frame c.1 ++ frameTag c.1)) with
          status := c.2.1, result := some ⟨c.2.1, 0x230#32, c.2.2, []⟩ }) := by
  intro c hc
  simp only [List.mem_cons, List.not_mem_nil, or_false] at hc
  rcases hc with rfl | rfl | rfl <;> exact eq_next (by decide +kernel)

/-- X1. -/
theorem witness_InboundFrameAdvancesTheCounterByItsBlocks :
    ∃ t u, execUnder toy (.decfb 0x200#32 0x210#32) (receiver (image 0x200 (CA ++ TA))) = .next t ∧ t.status = 0x00#8 ∧
      execUnder toy (.decvf 0x200#32 0x230#32 0#32) t = .next u ∧ u.status = 0x00#8 :=
  ⟨{ receiver (image 0x200 (Pa ++ TA)) with
      ctri := beVec 16 1, phase := .peeked, result := some ⟨0x00#8, 0x210#32, [], []⟩ },
    { receiver (image 0x200 (Pa ++ TA)) with
      ctri := beVec 16 1, result := some ⟨0x00#8, 0x230#32, [0x42#8], []⟩ },
    eq_next (by decide +kernel), rfl, eq_next (by decide +kernel), rfl⟩

/-- Y1 and X1. -/
theorem witness_SentFrameIsReceived :
    let a := sender (image 0x100 Pa)
    let a' := { sender (image 0x100 (CA ++ TA)) with
      ctro := beVec 16 1, result := some ⟨0x00#8, 0x130#32, [], []⟩ }
    let b := receiver (image 0x200 (CA ++ TA))
    Crosswise a b ∧ a.mem.wf = true ∧ b.mem.wf = true ∧ b.valid = true ∧ 16 ≤ windowSize 0x100#32 0x110#32 ∧
    10 = (a.mem.read ((0x100#32).toNat + 4)).toNat ∧ 10 + 5 ≤ windowSize 0x100#32 0x110#32 ∧
    execUnder toy (.enc 0x100#32 0x110#32 0#32) a = .next a' ∧ a'.status = 0x00#8 ∧
    (0x230#32).toNat = (0x200#32).toNat + windowSize 0x100#32 0x110#32 + 32 ∧ (0x230#32).toNat ≤ b.cap ∧
    (0x200#32).toNat + 16 ≤ (0x210#32).toNat ∧ (0x210#32).toNat ≤ b.cap ∧
    b.mem.readBytes (0x200#32).toNat (windowSize 0x100#32 0x110#32 + 32)
      = a'.mem.readBytes (0x100#32).toNat (windowSize 0x100#32 0x110#32 + 32) :=
  ⟨⟨rfl, rfl, rfl⟩, by decide +kernel, by decide +kernel, rfl, by decide, by decide +kernel, by decide,
    eq_next (by decide +kernel), rfl, by decide, by decide, by decide, by decide, by decide +kernel⟩

/-- A frame of one block, and one of 20 bytes (Y4). -/
theorem witness_OnlyWholeBlockFramesLeaveAFreshCounter :
    execUnder toy (.enc 4048#32 4064#32 0#32) (sender (image 4048 Pa)) =
      .next { sender (image 4048 (CA ++ TA)) with
        ctro := beVec 16 1, result := some ⟨0x00#8, 4096#32, [], []⟩ } ∧
    BlockMultiple 4048#32 4064#32 ∧
    isNext (execUnder toy (.enc 0x100#32 0x114#32 0#32)
        (sender (image 0x100 (beBytes 20 0x000000100A424344454600000000000000000000))))
      { sender (image 0x100 (beBytes 20 0x101112031E5755535D5F1A1B1C1D1E1F10111213
          ++ beBytes 32 0x4041424344454657420B090F090B4E4F505152535455565758595A5B5C5D5E5F)) with
        ctro := beVec 16 1, result := some ⟨0x00#8, 0x134#32, [], []⟩ } = true ∧
    ¬ BlockMultiple 0x100#32 0x114#32 :=
  ⟨test_enc_appends_tag, by unfold BlockMultiple; decide, by decide +kernel, by unfold BlockMultiple; decide⟩

/-- Failures of each row of R161's table: `ArgumentError`, `NotInitialized`, `IllegalCommand`, `InvalidKeySize`,
DECFB's and DECVF's `PrimitiveFailure`; the three verification failures of DECVF stand in the witness of
`OnlyAuthenticFramesPassTheTag` and in `test_decvf_without_decfb_mismatches`. -/
theorem witness_FailureChangesOnlyWhatTheTableSays :
    execUnder toy (.decvf 0#32 47#32 0#32) (receiver []) =
      .next { receiver [] with status := 0x02#8, result := some ⟨0x02#8, 47#32, [], []⟩ } ∧
    execUnder toy (.decvf 0#32 48#32 0#32) (fresh []) =
      .next { fresh [] with status := 0x08#8, result := some ⟨0x08#8, 48#32, [], []⟩ } ∧
    execUnder toy (.decvf 1#32 0#32 0#32) (receiver []) =
      .next { receiver [] with status := 0x09#8, result := some ⟨0x09#8, 0#32, [], []⟩ } ∧
    execUnder toy (.init 0#32 131#32) (fresh (image 0 kbShort)) =
      .next { fresh (image 0 kbShort) with status := 0x01#8, result := some ⟨0x01#8, 131#32, [], []⟩ } ∧
    execUnder (failingE (beVec 16 0)) (.decfb 0#32 16#32) (receiver []) =
      .next { receiver [] with status := 0x06#8, result := some ⟨0x06#8, 16#32, [], [0xEE#8]⟩ } ∧
    execUnder (failingE (beVec 16 1)) (.decvf 0#32 80#32 0#32) { receiver [] with phase := .peeked } =
      .next { receiver [] with
        ctri := beVec 16 1, status := 0x06#8, result := some ⟨0x06#8, 80#32, [], [0xEE#8]⟩ } :=
  ⟨eq_next (by decide +kernel), eq_next (by decide +kernel), eq_next (by decide +kernel),
    test_init_refuses_15_byte_key, eq_next (by decide +kernel), eq_next (by decide +kernel)⟩

/-- ENC and DECFB store; the first byte past ENC's stores is none of them. -/
theorem witness_CommandsStoreOnlyWhereTheyMay :
    isNext (execUnder toy (.enc 0x100#32 0x110#32 0#32) (sender (image 0x100 Pa)))
      { sender (image 0x100 (CA ++ TA)) with ctro := beVec 16 1, result := some ⟨0x00#8, 0x130#32, [], []⟩ } = true ∧
    ¬ InStores (.enc 0x100#32 0x110#32 0#32) 0x130 ∧ InStores (.enc 0x100#32 0x110#32 0#32) 0x12F ∧
    ¬ InStores (.decfb 0x200#32 0x230#32) 0x210 ∧ InStores (.decfb 0x200#32 0x230#32) 0x20F := by
  refine ⟨by decide +kernel, ?_, ?_, ?_, ?_⟩ <;> unfold InStores <;> decide

/-- Two memories that differ in the first byte past the window. -/
theorem witness_CommandsReadOnlyTheirWindow :
    let s := receiver (image 0x200 CA)
    let m := s.mem.write 0x210 0x55#8
    s.mem.wf = true ∧ m.wf = true ∧ m ≠ s.mem ∧
    (∀ a, InWindow (Instr.decfb 0x200#32 0x210#32).rd (Instr.decfb 0x200#32 0x210#32).wr a →
      m.read a = s.mem.read a) ∧
    (∃ t, exec (.init 0x200#32 0x210#32) s = .next t) := by
  refine ⟨by decide +kernel, by decide +kernel, by decide +kernel, ?_, ?_⟩
  · rintro a ⟨_, h⟩
    refine Memory.read_write_other _ _ ?_
    simp [Instr.wr] at h
    omega
  · exact ⟨{ receiver (image 0x200 CA) with status := 0x02#8, result := some ⟨0x02#8, 0x210#32, [], []⟩ },
      eq_next (by decide +kernel)⟩

/-- Program 2, command 1, as a step. -/
theorem step_init_kbB :
    step ({ fresh (image 0 kbB) with keo := K1 }.withFetchWord 128 0x01000000000000000000000000000084) =
      .next { receiver (image 0 kbB) with
        ctri := beVec 16 (2 ^ 128 - 2), result := some ⟨0x00#8, 132#32, [], []⟩ } := eq_next (by decide +kernel)

theorem witness_KeysChangeOnlyByKeyCommandOrReset :
    (∃ s t, step s = .next t ∧ ¬ (t.kei = s.kei ∧ t.keo = s.keo ∧ t.kmi = s.kmi ∧ t.kmo = s.kmo)) :=
  ⟨_, _, step_init_kbB, fun h => absurd h.2.1 (by decide +kernel)⟩

theorem witness_ValidIsSetByInitAndClearedByReset :
    (∃ s t, step s = .next t ∧ s.valid = false ∧ t.valid = true) ∧
    (∃ s t, step s = .next t ∧ s.valid = true ∧ t.valid = false) :=
  ⟨⟨_, _, step_init_kbB, rfl, rfl⟩, ⟨{ receiver [] with inputs := [.reset] }, _, rfl, rfl, rfl⟩⟩

theorem inv_receiver (s : State) (h : s = { receiver s.mem with phase := s.phase, inputs := s.inputs })
    (hm : s.mem.wf = true) (hb : s.mem.below 4096 = true) : Inv s := by
  rw [h]
  exact { capPositive := (by decide : 0 < 4096)
          capBounded := (by decide : 4096 ≤ 2 ^ 32)
          memCanonical := hm
          memInside := hb
          peekedIsValid := fun _ => rfl
          statusProduced := (by decide : (0x00#8 : BitVec 8).toNat ≤ 9)
          resultLatched := fun r hr => by cases hr
          payloadOnSuccess := fun r hr => by cases hr
          infoOnPrimitiveFailure := fun r hr => by cases hr }

/-- Both directions of `PHASE`, and a step that changes it. -/
theorem witness_PhaseFollowsTheTwoStepDecrypt :
    (∃ s t, Inv s ∧ execUnder toy (.decvf 0#32 48#32 0#32) s = .next t ∧ s.phase = .peeked ∧ t.phase = .idle) ∧
    (∃ s t, Inv s ∧ execUnder toy (.decfb 0#32 16#32) s = .next t ∧ s.phase = .idle ∧ t.phase = .peeked) ∧
    (∃ s t, step s = .next t ∧ t.phase ≠ s.phase) :=
  ⟨⟨{ receiver [] with phase := .peeked },
      { receiver [] with status := 0x03#8, result := some ⟨0x03#8, 48#32, [], []⟩ },
      inv_receiver _ rfl rfl rfl, eq_next (by decide +kernel), rfl, rfl⟩,
    ⟨receiver [], { receiver (image 0 K1.toList) with
        ctri := beVec 16 1, phase := .peeked, result := some ⟨0x00#8, 16#32, [], []⟩ },
      inv_receiver _ rfl rfl rfl, eq_next (by decide +kernel), rfl, rfl⟩,
    ⟨{ receiver [] with phase := .peeked, inputs := [.reset] }, _, rfl, fun h => by cases h⟩⟩

/-- Both commands, one of them with success from either phase. -/
theorem witness_InboundCommandsDoNotTestPhase :
    Instr.decfb 0#32 16#32 = .decfb (Instr.decfb 0#32 16#32).rd (Instr.decfb 0#32 16#32).wr ∧
    (∃ seq, Instr.decvf 0#32 48#32 5#32 =
      .decvf (Instr.decvf 0#32 48#32 5#32).rd (Instr.decvf 0#32 48#32 5#32).wr seq) ∧
    (∃ t, execUnder toy (.decfb 0#32 16#32) (receiver []) = .next t ∧ t.status = 0x00#8) :=
  ⟨rfl, ⟨5#32, rfl⟩, ⟨{ receiver (image 0 K1.toList) with
        ctri := beVec 16 1, phase := .peeked, result := some ⟨0x00#8, 16#32, [], []⟩ },
      eq_next (by decide +kernel), rfl⟩⟩

/-- ENC's tag ends where the inbound window begins. -/
theorem witness_DirectionsCommute :
    (receiver (image 0x200 CA)).mem.wf = true ∧
    Instr.decfb 0x200#32 0x210#32 = .decfb (Instr.decfb 0x200#32 0x210#32).rd (Instr.decfb 0x200#32 0x210#32).wr ∧
    (∃ q, Instr.decvf 0x200#32 0x230#32 1#32 =
      .decvf (Instr.decvf 0x200#32 0x230#32 1#32).rd (Instr.decvf 0x200#32 0x230#32 1#32).wr q) ∧
    WindowsApart 0x200#32 0x210#32 0x1D0#32 0x1E0#32 := by
  refine ⟨by decide +kernel, rfl, ⟨1#32, rfl⟩, ?_⟩
  rintro a ⟨h1, _⟩ ⟨_, h2⟩
  simp at h1 h2
  omega

/-- An INIT that succeeds and one that fails. -/
theorem witness_RegistersAreUnreadBeforeInit :
    (fresh (image 0 kbB)).valid = false ∧
    (∃ t, exec (.init 0#32 132#32) (fresh (image 0 kbB)) = .next t ∧ t.status = 0x00#8) ∧
    (∃ t, exec (.init 0#32 131#32) (fresh (image 0 kbShort)) = .next t ∧ t.status ≠ 0x00#8) :=
  ⟨rfl, ⟨_, test_init_loads, rfl⟩, ⟨_, test_init_refuses_15_byte_key, by decide⟩⟩

theorem witness_StepKeepsTheInvariant :
    ∃ s t, Inv s ∧ step s = .next t ∧ t ≠ s :=
  ⟨{ receiver [] with inputs := [.store 4095 [0x01#8]] }, { receiver [(4095, 0x01#8)] with inputs := [] },
    inv_receiver _ rfl rfl rfl, eq_next (by decide +kernel), by decide +kernel⟩

/-- P9, and a count of increments that is `2 ^ 128`. -/
theorem witness_CounterIncrementAddsOne : (0x01#8 : Byte) ≠ 0xFF#8 ∧ ∃ k, k = 2 ^ 128 := ⟨by decide, _, rfl⟩

/-- P16: 20 bytes, one full block and a tail; and a failure at the tail's block. -/
theorem witness_KeystreamIsPositional :
    ctrCrypt (toy.E K1) (beVec 16 0) (beBytes 20 0x000000100A424344454600000000000000000000) =
      .done (beBytes 20 0x101112031E5755535D5F1A1B1C1D1E1F10111213) (beVec 16 1) ∧
    ctrCrypt ((failingE (beVec 16 1)).E K1) (beVec 16 0) (List.replicate 20 0x00#8) =
      .failed [0xEE#8] (beVec 16 1) := by decide +kernel

/-- P15. -/
theorem witness_CtrCryptIsItsOwnInverse : ctrCrypt (toy.E K1) (beVec 16 0) Pa = .done CA (beVec 16 1) := by
  decide +kernel

/-- P21's frame, and the shortest frame with a length field. -/
theorem witness_MacMessagesAgree : 4 ≤ Pa.length ∧ 4 ≤ (Pa.take 4).length := by decide

/-- P30 with P33 and P34: both sides of each bound. -/
theorem witness_PaddingIsStripped :
    16 ≤ (frame 3#8).length ∧ ((frame 3#8).getD 4 0#8).toNat < 4 ∧
    4 ≤ ((frame 12#8).getD 4 0#8).toNat ∧ (frame 12#8).length < 5 + ((frame 12#8).getD 4 0#8).toNat ∧
    4 ≤ ((frame 4#8).getD 4 0#8).toNat ∧ 5 + ((frame 11#8).getD 4 0#8).toNat ≤ (frame 11#8).length := by decide

theorem witness_WrittenBytesReadBack : Memory.wf (image 0x200 CA) = true := by decide +kernel

end Sys2Proof.Tests
end

/-! ## The buffer space: a store of many bytes (00_scope.md R12) -/

namespace Sys2Proof.Machine.Memory

/-- A store of many bytes leaves every offset outside it alone. -/
theorem read_writeBytes_outside (m : Memory) {off a : Nat} {v : List Byte} (h : a < off ∨ off + v.length ≤ a) :
    (m.writeBytes off v).read a = m.read a := by
  induction v generalizing m off with
  | nil => rfl
  | cons b v ih =>
    simp only [List.length_cons] at h
    calc ((m.write off b).writeBytes (off + 1) v).read a
        = (m.write off b).read a := ih _ (by omega)
      _ = m.read a := read_write_other m b (by omega)

/-- A read of the bytes just stored gives them back: the later stores lie past the first byte. -/
theorem readBytes_writeBytes_same {m : Memory} (hm : m.wf = true) (off : Nat) (v : List Byte) :
    (m.writeBytes off v).readBytes off v.length = v := by
  induction v generalizing m off with
  | nil => rfl
  | cons b v ih =>
    have hfirst : ((m.write off b).writeBytes (off + 1) v).read off = b :=
      (read_writeBytes_outside _ (.inl (Nat.lt_succ_self off))).trans (read_write_same hm off b)
    have hrest := ih (wf_write hm off b) (off + 1)
    simp only [List.length_cons, Memory.writeBytes, Memory.readBytes, hfirst, hrest]

end Sys2Proof.Machine.Memory

namespace Sys2Proof.Machine

open Sys2Proof.Config (Primitives)

/-- Settles O52, from the rules of one byte by induction on the bytes stored. -/
theorem writtenBytesReadBack : Obligations.WrittenBytesReadBack := by
  intro m off v hm
  exact ⟨Memory.wf_writeBytes hm off v, Memory.readBytes_writeBytes_same hm off v,
    fun _ ha => Memory.read_writeBytes_outside m ha⟩

/-- Settles O42: each command's meaning is its meaning under some primitives, taken at the engine's own. -/
theorem execUsesTheEnginesPrimitives : Obligations.ExecUsesTheEnginesPrimitives := by
  intro i s
  cases i with
  | init rd wr => rfl
  | rekey rd wr => rfl
  | decfb rd wr => rfl
  | decvf rd wr seq => rfl
  | enc rd wr seq => rfl

/-! ## The invariant -/

/-- Settles O44: `CAP` is one more than a number below `2^32`, nothing is listed, and there is no record yet. -/
theorem resetHasTheInvariant : Obligations.ResetHasTheInvariant where
  capPositive := Nat.succ_pos _
  capBounded := Nat.succ_le_of_lt Config.capPred.isLt
  memCanonical := rfl
  memInside := rfl
  peekedIsValid h := nomatch h
  statusProduced := Nat.zero_le _
  resultLatched _ h := nomatch h
  payloadOnSuccess _ h := nomatch h
  infoOnPrimitiveFailure _ h := nomatch h

/-! ### Completing a command: the fields that speak of `STATUS` and the record -/

theorem Failure.code_le_nine (f : Failure) : f.code.toNat ≤ 9 := by
  cases f <;> simp [Failure.code]

/-- Only a failing primitive hands back an `INFO` (R156). -/
theorem Failure.code_of_info_ne_nil {f : Failure} (h : f.info ≠ []) : f.code = 0x06#8 := by
  cases f with
  | primitiveFailure info => rfl
  | _ => exact absurd rfl h

/-- A record of a produced code, with a payload or an `INFO` only where its code has one, may be latched. -/
theorem Inv.post {s : State} (h : Inv s) {r : Result} (hstatus : r.status.toNat ≤ 9)
    (hpayload : r.payload ≠ [] → r.status = statusOk) (hinfo : r.info ≠ [] → r.status = 0x06#8) :
    Inv (s.post r) :=
  { h with
    statusProduced := hstatus
    resultLatched := by rintro _ ⟨⟩; rfl
    payloadOnSuccess := by rintro _ ⟨⟩; exact hpayload
    infoOnPrimitiveFailure := by rintro _ ⟨⟩; exact hinfo }

theorem Inv.fail {s : State} (h : Inv s) (wr : BitVec 32) (f : Failure) : Inv (s.fail wr f) :=
  h.post f.code_le_nine (fun hp => absurd rfl hp) Failure.code_of_info_ne_nil

theorem Inv.succeed {s : State} (h : Inv s) (newwr : BitVec 32) (payload : List Byte) :
    Inv (s.succeed newwr payload) :=
  h.post (Nat.zero_le 9) (fun _ => rfl) (fun hi => absurd rfl hi)

/-! ### The writes of each command: the fields that speak of the buffer space, `VALID` and `PHASE` -/

/-- A store that stays below `CAP` keeps the buffer space canonical and inside (R50). -/
theorem Inv.withStore {s : State} (h : Inv s) {off : Nat} {v : List Byte} (hin : off + v.length ≤ s.cap) :
    Inv { s with mem := s.mem.writeBytes off v } :=
  { h with
    memCanonical := Memory.wf_writeBytes h.memCanonical off v
    memInside := Memory.below_writeBytes h.memInside off v hin }

theorem Inv.withInputs {s : State} (h : Inv s) (inputs : List HostInput) : Inv { s with inputs := inputs } :=
  { h with }

theorem Inv.hostReset {s : State} (h : Inv s) : Inv s.hostReset :=
  { resetHasTheInvariant with
    capPositive := h.capPositive
    capBounded := h.capBounded
    memCanonical := h.memCanonical
    memInside := h.memInside }

theorem Inv.replaceKeys {s : State} (h : Inv s) (k : SessionKeys) : Inv (s.replaceKeys k) :=
  { h with peekedIsValid := fun hp => nomatch hp }

theorem Inv.loadKeys {s : State} (h : Inv s) (k : SessionKeys) : Inv (s.loadKeys k) :=
  { h with peekedIsValid := fun _ => rfl }

/-- DECFB sets `PEEKED` only where `VALID` is set, and its 16 bytes lie in its window (R101). -/
theorem Inv.afterDecfb {s : State} (h : Inv s) (ks : Bytes 16) {rd wr : BitVec 32} (hvalid : s.valid = true)
    (hN : 16 ≤ windowSize rd wr) (hin : wr.toNat ≤ s.cap) : Inv (afterDecfb ks rd s) := by
  have hblock : (xorBytes (s.mem.readBytes rd.toNat 16) ks.toList).length = 16 := by
    simp [Memory.length_readBytes]
  have hstore : rd.toNat + (xorBytes (s.mem.readBytes rd.toNat 16) ks.toList).length ≤ s.cap := by
    unfold windowSize at hN
    omega
  exact { h.withStore hstore with peekedIsValid := fun _ => hvalid }

theorem Inv.afterDecvf {s : State} (h : Inv s) (c : Bytes 16) : Inv (afterDecvf c s) :=
  { h with peekedIsValid := fun hp => nomatch hp }

/-- ENC stores its window and the 32 bytes after it, which its room check has found below `CAP` (R121). -/
theorem Inv.afterEnc {s : State} (h : Inv s) {C T : List Byte} (c : Bytes 16) {rd wr : BitVec 32}
    (hC : C.length = windowSize rd wr) (hT : T.length = 32) (hord : rd.toNat ≤ wr.toNat)
    (hroom : wr.toNat + 32 ≤ s.cap) : Inv (afterEnc C T c rd wr s) := by
  have hwindow : rd.toNat + C.length ≤ s.cap := by
    unfold windowSize at hC
    omega
  have htag : wr.toNat + T.length ≤ s.cap := by rwa [hT]
  exact { (h.withStore hwindow).withStore htag with }

/-! ### The commands and the step -/

/-- However DECVF's verification ends, it changes nothing but `STATUS` and the record. -/
theorem Inv.finish_decvfVerify {s : State} (h : Inv s) (p : Primitives) (wr seq : BitVec 32) (P T : List Byte) :
    Inv ((decvfVerify p wr seq P T s).finish wr) := by
  rcases decvfVerify_cases p wr seq P T s with
    ⟨info, -, hend⟩ | ⟨X, -, ⟨-, hend⟩ | ⟨f, -, -, hend⟩ | ⟨payload, -, -, hend⟩⟩
  · exact hend ▸ h.fail wr (.primitiveFailure info)
  · exact hend ▸ h.fail wr .tagMismatch
  · exact hend ▸ h.fail wr f
  · exact hend ▸ h.succeed wr payload

theorem execInit_keeps_inv {rd wr : BitVec 32} {s t : State} (h : Inv s) (ht : execInit rd wr s = .next t) :
    Inv t := by
  rcases execInit_cases rd wr s with ⟨-, hend⟩ | ⟨f, -, hend⟩ | ⟨k, -, -, -, hend⟩
  · exact nomatch hend.symm.trans ht
  · cases hend.symm.trans ht
    exact h.fail wr f
  · cases hend.symm.trans ht
    exact (h.loadKeys k).succeed wr []

theorem execRekey_keeps_inv {rd wr : BitVec 32} {s t : State} (h : Inv s) (ht : execRekey rd wr s = .next t) :
    Inv t := by
  rcases execRekey_cases rd wr s with ⟨-, hend⟩ | ⟨f, -, hend⟩ | ⟨k, -, -, -, -, hend⟩
  · exact nomatch hend.symm.trans ht
  · cases hend.symm.trans ht
    exact h.fail wr f
  · cases hend.symm.trans ht
    exact (h.replaceKeys k).succeed wr []

theorem decfbUnder_keeps_inv {p : Primitives} {rd wr : BitVec 32} {s t : State} (h : Inv s)
    (ht : decfbUnder p rd wr s = .next t) : Inv t := by
  rcases decfbUnder_cases p rd wr s with ⟨f, -, hend⟩ | ⟨ks, -, hvalid, hN, -, hin, hend⟩
  · cases hend.symm.trans ht
    exact h.fail wr f
  · cases hend.symm.trans ht
    exact (h.afterDecfb ks hvalid hN hin).succeed wr []

theorem decvfUnder_keeps_inv {p : Primitives} {rd wr seq : BitVec 32} {s t : State} (h : Inv s)
    (ht : decvfUnder p rd wr seq s = .next t) : Inv t := by
  rcases decvfUnder_cases p rd wr seq s with
    ⟨f, -, hend⟩ | ⟨-, -, -, -, ⟨info, c, -, hend⟩ | ⟨rest, c, -, hend⟩⟩
  · cases hend.symm.trans ht
    exact h.fail wr f
  · cases hend.symm.trans ht
    exact (h.afterDecvf c).fail wr (.primitiveFailure info)
  · cases hend.symm.trans ht
    exact (h.afterDecvf c).finish_decvfVerify p wr seq _ _

theorem encUnder_keeps_inv {p : Primitives} {rd wr seq : BitVec 32} {s t : State} (h : Inv s)
    (ht : encUnder p rd wr seq s = .next t) : Inv t := by
  rcases encUnder_cases p rd wr seq s with ⟨f, -, hend⟩ | ⟨T, C, c, -, hT, hcrypt, -, hord, hroom, hend⟩
  · cases hend.symm.trans ht
    exact h.fail wr f
  · cases hend.symm.trans ht
    have hC : C.length = windowSize rd wr := (ctrCrypt_done hcrypt).1.trans (Memory.length_readBytes _ _ _)
    exact (h.afterEnc c hC hT hord hroom).succeed (newWr wr) []

/-- Every command keeps the invariant, whatever the primitives answer. -/
theorem execUnder_keeps_inv {p : Primitives} {i : Instr} {s t : State} (h : Inv s)
    (ht : execUnder p i s = .next t) : Inv t := by
  cases i with
  | init rd wr => exact execInit_keeps_inv h ht
  | rekey rd wr => exact execRekey_keeps_inv h ht
  | decfb rd wr => exact decfbUnder_keeps_inv h ht
  | decvf rd wr seq => exact decvfUnder_keeps_inv h ht
  | enc rd wr seq => exact encUnder_keeps_inv h ht

/-- Settles O43, by what a step can do (`step_cases`): each kind of host input keeps the invariant. -/
theorem stepKeepsTheInvariant : Obligations.StepKeepsTheInvariant := by
  intro s t h ht
  rcases step_cases s with ⟨-, hidle⟩ | ⟨d, rest, e, -, -, hillegal⟩ | ⟨d, rest, i, -, -, hcommand⟩ |
    ⟨rest, -, hreset⟩ | ⟨off, bytes, rest, -, hin, hstore⟩ | ⟨off, bytes, rest, -, -, hfault⟩
  · cases hidle.symm.trans ht
    exact h
  · cases hillegal.symm.trans ht
    exact (h.withInputs rest).fail _ .illegalCommand
  · rw [hcommand, execUsesTheEnginesPrimitives] at ht
    exact execUnder_keeps_inv (h.withInputs rest) ht
  · cases hreset.symm.trans ht
    exact (h.withInputs rest).hostReset
  · cases hstore.symm.trans ht
    exact (h.withInputs rest).withStore hin
  · exact nomatch hfault.symm.trans ht

end Sys2Proof.Machine

/-! ## The session state: what a command and a step may change (10_state.md R21 to R29) -/

namespace Sys2Proof.Machine

open Sys2Proof.Config (Primitives KeyRegisters)

/-- Settles O11: the three fields are written out in `State.reset`. -/
theorem resetStateIsUninitialised : Obligations.ResetStateIsUninitialised := ⟨rfl, rfl, rfl⟩

/-- Settles O10: the step takes the reset, and `hostReset` is the reset state but for the buffer space and the further
inputs. -/
theorem resetDropsTheSession : Obligations.ResetDropsTheSession := by
  intro s rest hin
  have hstep : step s = .next ({ s with inputs := rest } : State).hostReset := by
    simp only [step, stepInput, hin, runInput]
  exact ⟨_, hstep, rfl, rfl, rfl, rfl, rfl, rfl⟩

/-- Everything a command that completes can have done, whatever the primitives answer. -/
inductive Effect (s : State) : Instr → State → Prop where
  /-- Turned away by an entry check or failed before its first write (R162). -/
  | failed (i : Instr) (f : Failure) : Effect s i (s.fail i.wr f)
  /-- INIT that succeeded (R91); it was not mid-packet on an initialised engine (R93). -/
  | loaded (rd wr : BitVec 32) (k : SessionKeys) (hboundary : ¬ (s.valid = true ∧ s.phase = .peeked)) :
      Effect s (.init rd wr) ((s.loadKeys k).succeed wr [])
  /-- REKEY that succeeded (R92), under the same condition. -/
  | rekeyed (rd wr : BitVec 32) (k : SessionKeys) (hboundary : ¬ (s.valid = true ∧ s.phase = .peeked)) :
      Effect s (.rekey rd wr) ((s.replaceKeys k).succeed wr [])
  /-- DECFB that succeeded (R101). -/
  | peeked (rd wr : BitVec 32) (ks : Bytes 16) : Effect s (.decfb rd wr) ((afterDecfb ks rd s).succeed wr [])
  /-- DECVF past its entry checks (R104), however it ended: the writes that stay, and a result (R108). -/
  | consumed (rd wr seq : BitVec 32) (c : Bytes 16) (r : Result) (hsize : 48 ≤ windowSize rd wr) :
      Effect s (.decvf rd wr seq) ((afterDecvf c s).post r)
  /-- ENC that succeeded (R121). -/
  | sent (rd wr seq : BitVec 32) (C T : List Byte) (c : Bytes 16) :
      Effect s (.enc rd wr seq) ((afterEnc C T c rd wr s).succeed (newWr wr) [])

/-- A key command with a good window and a good key block that is not refused is at a packet boundary (R93). -/
theorem boundary_of_not_replacesMidPacket {i : Instr} {s : State} {k : SessionKeys}
    (hmid : replacesMidPacket i s = false) (hwindow : i.wellFormed s.cap = true)
    (hkeys : windowKeys i.rd i.wr s = .ok k) : ¬ (s.valid = true ∧ s.phase = .peeked) := by
  rintro ⟨hvalid, hphase⟩
  simp [replacesMidPacket, hvalid, hphase, hwindow, hkeys, Except.toBool] at hmid

/-- However DECVF's verification ends, it only latches a result. -/
theorem finish_decvfVerify_eq_post (p : Primitives) (wr seq : BitVec 32) (P T : List Byte) (s : State) :
    ∃ r, (decvfVerify p wr seq P T s).finish wr = s.post r := by
  rcases decvfVerify_cases p wr seq P T s with
    ⟨info, -, hend⟩ | ⟨X, -, ⟨-, hend⟩ | ⟨f, -, -, hend⟩ | ⟨payload, -, -, hend⟩⟩
  all_goals
    rw [hend]
    exact ⟨_, rfl⟩

/-- Each command's ends, as its own `_cases` lemma lists them, are effects. -/
theorem effect_of_execUnder {p : Primitives} {i : Instr} {s t : State} (h : execUnder p i s = .next t) :
    Effect s i t := by
  cases i with
  | init rd wr =>
    rcases execInit_cases rd wr s with ⟨-, hend⟩ | ⟨f, -, hend⟩ | ⟨k, hkeys, hmid, hwindow, hend⟩
    · exact nomatch hend.symm.trans h
    · cases hend.symm.trans h
      exact .failed _ f
    · cases hend.symm.trans h
      exact .loaded rd wr k (boundary_of_not_replacesMidPacket hmid hwindow hkeys)
  | rekey rd wr =>
    rcases execRekey_cases rd wr s with ⟨-, hend⟩ | ⟨f, -, hend⟩ | ⟨k, hkeys, -, hmid, hwindow, hend⟩
    · exact nomatch hend.symm.trans h
    · cases hend.symm.trans h
      exact .failed _ f
    · cases hend.symm.trans h
      exact .rekeyed rd wr k (boundary_of_not_replacesMidPacket hmid hwindow hkeys)
  | decfb rd wr =>
    rcases decfbUnder_cases p rd wr s with ⟨f, -, hend⟩ | ⟨ks, -, -, -, -, -, hend⟩
    · cases hend.symm.trans h
      exact .failed _ f
    · cases hend.symm.trans h
      exact .peeked rd wr ks
  | decvf rd wr seq =>
    rcases decvfUnder_cases p rd wr seq s with
      ⟨f, -, hend⟩ | ⟨-, hsize, -, -, ⟨info, c, -, hend⟩ | ⟨rest, c, -, hend⟩⟩
    · cases hend.symm.trans h
      exact .failed _ f
    · cases hend.symm.trans h
      exact .consumed rd wr seq c _ hsize
    · obtain ⟨r, hr⟩ := finish_decvfVerify_eq_post p wr seq (s.mem.readBytes rd.toNat 16 ++ rest)
        (s.mem.readBytes (rd.toNat + windowSize rd wr - 32) 32) (afterDecvf c s)
      cases hend.symm.trans h
      rw [hr]
      exact .consumed rd wr seq c r hsize
  | enc rd wr seq =>
    rcases encUnder_cases p rd wr seq s with ⟨f, -, hend⟩ | ⟨T, C, c, -, -, -, -, -, -, hend⟩
    · cases hend.symm.trans h
      exact .failed _ f
    · cases hend.symm.trans h
      exact .sent rd wr seq C T c

/-- A step that gives a next state took a reset, or took a command and had its effect, or left every register, `VALID`
and `PHASE` alone. -/
theorem step_next_cases {s t : State} (h : step s = .next t) :
    (∃ rest, s.inputs = .reset :: rest) ∨
    (∃ i rest, s.Issues i ∧ Effect { s with inputs := rest } i t) ∨
    t = { s with status := t.status, mem := t.mem, inputs := t.inputs, result := t.result } := by
  rcases step_cases s with ⟨-, hidle⟩ | ⟨d, rest, e, -, -, hillegal⟩ | ⟨d, rest, i, hin, hd, hcommand⟩ |
    ⟨rest, hin, -⟩ | ⟨off, bytes, rest, -, -, hstore⟩ | ⟨off, bytes, rest, -, -, hfault⟩
  · cases hidle.symm.trans h
    exact .inr (.inr rfl)
  · cases hillegal.symm.trans h
    exact .inr (.inr rfl)
  · rw [hcommand, execUsesTheEnginesPrimitives] at h
    exact .inr (.inl ⟨i, rest, ⟨d, rest, hin, hd⟩, effect_of_execUnder h⟩)
  · exact .inl ⟨rest, hin⟩
  · cases hstore.symm.trans h
    exact .inr (.inr rfl)
  · exact nomatch hfault.symm.trans h

/-- Settles O33: of the effects of a command only `loaded` and `rekeyed` write a key. -/
theorem keysChangeOnlyByKeyCommandOrReset : Obligations.KeysChangeOnlyByKeyCommandOrReset := by
  intro s t hstep hchanged
  rcases step_next_cases hstep with hreset | ⟨i, rest, hissues, heffect⟩ | hkept
  · exact .inl hreset
  · right
    cases heffect with
    | loaded rd wr k => exact ⟨rd, wr, .inl hissues, rfl⟩
    | rekeyed rd wr k => exact ⟨rd, wr, .inr hissues, rfl⟩
    | failed | peeked | consumed | sent => exact absurd ⟨rfl, rfl, rfl, rfl⟩ hchanged
  · rw [hkept] at hchanged
    exact absurd ⟨rfl, rfl, rfl, rfl⟩ hchanged

/-- Settles O34: of the effects of a command only `loaded` writes `VALID`, and it sets it. -/
theorem validIsSetByInitAndClearedByReset : Obligations.ValidIsSetByInitAndClearedByReset := by
  intro s t hstep
  rcases step_next_cases hstep with ⟨rest, hin⟩ | ⟨i, rest, hissues, heffect⟩ | hkept
  · refine ⟨fun _ hset => ?_, fun _ _ => ⟨rest, hin⟩⟩
    obtain ⟨t', hstep', hcleared, -⟩ := resetDropsTheSession s rest hin
    cases hstep'.symm.trans hstep
    exact nomatch hcleared.symm.trans hset
  · cases heffect with
    | loaded rd wr k => exact ⟨fun _ _ => ⟨rd, wr, hissues, rfl⟩, fun _ hclear => nomatch hclear⟩
    | failed | rekeyed | peeked | consumed | sent =>
      exact ⟨fun h0 h1 => (nomatch h0.symm.trans h1), fun h1 h0 => (nomatch h1.symm.trans h0)⟩
  · rw [hkept]
    exact ⟨fun h0 h1 => (nomatch h0.symm.trans h1), fun h1 h0 => (nomatch h1.symm.trans h0)⟩

/-- Settles O35: of the effects of a command `peeked` sets `PEEKED`, `consumed` sets `IDLE`, and the two key commands,
which also set `IDLE`, have no meaning from `PEEKED` (R93), where the invariant gives `VALID`. -/
theorem phaseFollowsTheTwoStepDecrypt : Obligations.PhaseFollowsTheTwoStepDecrypt := by
  refine ⟨fun p i s t hinv hexec => ?_, fun s t hstep hchanged => ?_⟩
  · cases effect_of_execUnder hexec with
    | loaded rd wr k hboundary | rekeyed rd wr k hboundary =>
      exact ⟨fun hpeeked _ => absurd ⟨hinv.peekedIsValid hpeeked, hpeeked⟩ hboundary, fun _ hset => nomatch hset⟩
    | peeked rd wr ks => exact ⟨fun _ hidle => (nomatch hidle), fun _ _ => ⟨rd, wr, rfl, rfl⟩⟩
    | consumed rd wr seq c r hsize => exact ⟨fun _ _ => ⟨rd, wr, seq, rfl, hsize⟩, fun _ hset => nomatch hset⟩
    | failed | sent =>
      exact ⟨fun h1 h0 => (nomatch h1.symm.trans h0), fun h0 h1 => (nomatch h0.symm.trans h1)⟩
  · rcases step_next_cases hstep with hreset | ⟨i, rest, hissues, -⟩ | hkept
    · exact .inl hreset
    · exact .inr ⟨i, hissues⟩
    · exact absurd (congrArg State.phase hkept) hchanged

/-! ## What a command does not read: its rule commutes with replacing those fields (60_exceptions.md R165, R168) -/

/-- The same end of a rule, with the state it ends in changed by `f`. -/
def Completion.map (f : State → State) : Completion → Completion
  | .done s newwr payload => .done (f s) newwr payload
  | .raised s failure => .raised (f s) failure

/-- Where `f` changes nothing that a check reads, the two outcomes of the check are compared one by one. -/
theorem ite_eq_map_ite {P : Prop} [Decidable P] {f : State → State} {a b a' b' : Completion} (ha : a' = a.map f)
    (hb : b' = b.map f) : (if P then a' else b') = (if P then a else b).map f := by
  by_cases hP : P
  · rw [if_pos hP, if_pos hP, ha]
  · rw [if_neg hP, if_neg hP, hb]

/-- A rule that neither reads nor writes what `f` replaces. -/
def Ignores (f : State → State) (rule : State → Completion) : Prop := ∀ s, rule (f s) = (rule s).map f

/-- `STATUS` and the last record of a state replaced. -/
def State.withRecord (status : BitVec 8) (result : Option Result) (s : State) : State :=
  { s with status := status, result := result }

/-- Where a rule ignores what `f` replaces, the command ends as before, changed by what `f` leaves visible after the
result is latched. -/
theorem Ignores.sequence {f g : State → State} {rule : State → Completion} (h : Ignores f rule)
    (hcap : ∀ s, (f s).cap = s.cap) (hpost : ∀ r s, (f s).post r = g (s.post r)) (i : Instr) (s : State) :
    (f s).sequence i rule = g (s.sequence i rule) := by
  have hfinish (c : Completion) : (c.map f).finish i.wr = g (c.finish i.wr) := by
    cases c with
    | done | raised => exact hpost _ _
  by_cases hwindow : i.wellFormed s.cap = true
  · rw [sequence_of_wellFormed hwindow, sequence_of_wellFormed (by rwa [hcap]), h, hfinish]
  · rw [Bool.not_eq_true] at hwindow
    rw [sequence_of_malformed hwindow, sequence_of_malformed (by rwa [hcap])]
    exact hpost _ _

/-- A rule that neither reads nor writes the outbound registers and the latched record. -/
def IgnoresOutbound (rule : State → Completion) : Prop :=
  ∀ keo kmo ctro status result, Ignores (fun s => (s.withOutbound keo kmo ctro).withRecord status result) rule

/-- A rule that neither reads nor writes the inbound registers, `PHASE` and the latched record. -/
def IgnoresInbound (rule : State → Completion) : Prop :=
  ∀ kei kmi ctri phase status result,
    Ignores (fun s => (s.withInbound kei kmi ctri phase).withRecord status result) rule

theorem IgnoresOutbound.sequence {rule : State → Completion} (h : IgnoresOutbound rule) (keo : Bytes 16)
    (kmo : Bytes 32) (ctro : Bytes 16) (status : BitVec 8) (result : Option Result) (i : Instr) (s : State) :
    ((s.withOutbound keo kmo ctro).withRecord status result).sequence i rule =
      (s.sequence i rule).withOutbound keo kmo ctro :=
  (h keo kmo ctro status result).sequence (fun _ => rfl) (fun _ _ => rfl) i s

/-- What is not read is not written: a state's own outbound registers may be put back. -/
theorem IgnoresOutbound.keeps {rule : State → Completion} (h : IgnoresOutbound rule) (i : Instr) (s : State) :
    s.sequence i rule = (s.sequence i rule).withOutbound s.keo s.kmo s.ctro :=
  h.sequence s.keo s.kmo s.ctro s.status s.result i s

theorem IgnoresOutbound.sequence_withRecord {rule : State → Completion} (h : IgnoresOutbound rule)
    (status : BitVec 8) (result : Option Result) (i : Instr) (s : State) :
    (s.withRecord status result).sequence i rule = s.sequence i rule :=
  (h.sequence s.keo s.kmo s.ctro status result i s).trans (h.keeps i s).symm

theorem IgnoresInbound.sequence {rule : State → Completion} (h : IgnoresInbound rule) (kei : Bytes 16)
    (kmi : Bytes 32) (ctri : Bytes 16) (phase : Phase) (status : BitVec 8) (result : Option Result) (i : Instr)
    (s : State) :
    ((s.withInbound kei kmi ctri phase).withRecord status result).sequence i rule =
      (s.sequence i rule).withInbound kei kmi ctri phase :=
  (h kei kmi ctri phase status result).sequence (fun _ => rfl) (fun _ _ => rfl) i s

/-- As `IgnoresOutbound.keeps`, of the inbound registers and `PHASE`. -/
theorem IgnoresInbound.keeps {rule : State → Completion} (h : IgnoresInbound rule) (i : Instr) (s : State) :
    s.sequence i rule = (s.sequence i rule).withInbound s.kei s.kmi s.ctri s.phase :=
  h.sequence s.kei s.kmi s.ctri s.phase s.status s.result i s

theorem IgnoresInbound.sequence_withRecord {rule : State → Completion} (h : IgnoresInbound rule)
    (status : BitVec 8) (result : Option Result) (i : Instr) (s : State) :
    (s.withRecord status result).sequence i rule = s.sequence i rule :=
  (h.sequence s.kei s.kmi s.ctri s.phase status result i s).trans (h.keeps i s).symm

/-! ### The rules: DECFB and DECVF read the inbound registers, ENC the outbound ones, INIT and REKEY neither -/

theorem decfbRule_ignoresOutbound (p : Primitives) (rd wr : BitVec 32) : IgnoresOutbound (decfbRule p rd wr) := by
  intro keo kmo ctro status result s
  unfold decfbRule
  refine ite_eq_map_ite rfl (ite_eq_map_ite rfl ?_)
  simp only [State.withOutbound, State.withRecord]
  cases p.E s.kei s.ctri with
  | fail info | ok ks => rfl

/-- Of the registers the verification of DECVF reads `KMI` alone (R106). -/
theorem decvfVerify_ignores {f : State → State} (hkmi : ∀ s, (f s).kmi = s.kmi) (p : Primitives)
    (wr seq : BitVec 32) (P T : List Byte) : Ignores f (decvfVerify p wr seq P T) := by
  intro s
  unfold decvfVerify
  rw [hkmi]
  cases p.MAC s.kmi (macMsgIn seq (BitVec.ofNat 32 (be (slice P 0 4))) P) with
  | fail info => rfl
  | ok X =>
    refine ite_eq_map_ite rfl ?_
    cases stripPadding P with
    | error failure | ok payload => rfl

theorem decvfRule_ignoresOutbound (p : Primitives) (rd wr seq : BitVec 32) :
    IgnoresOutbound (decvfRule p rd wr seq) := by
  intro keo kmo ctro status result s
  unfold decvfRule
  refine ite_eq_map_ite rfl (ite_eq_map_ite rfl ?_)
  simp only [State.withOutbound, State.withRecord]
  cases ctrCrypt (p.E s.kei) s.ctri (s.mem.readBytes (rd.toNat + 16) (windowSize rd wr - 48)) with
  | failed info c => rfl
  | done rest c =>
    exact decvfVerify_ignores (f := fun s => (s.withOutbound keo kmo ctro).withRecord status result) (fun _ => rfl)
      p wr seq _ _ (afterDecvf c s)

theorem encRule_ignoresInbound (p : Primitives) (rd wr seq : BitVec 32) : IgnoresInbound (encRule p rd wr seq) := by
  intro kei kmi ctri phase status result s
  unfold encRule
  refine ite_eq_map_ite rfl (ite_eq_map_ite rfl ?_)
  simp only [State.withInbound, State.withRecord]
  cases p.MAC s.kmo (macMsgOut seq (s.mem.readBytes rd.toNat (windowSize rd wr))) with
  | fail info => rfl
  | ok T =>
    refine ite_eq_map_ite rfl ?_
    cases ctrCrypt (p.E s.keo) s.ctro (s.mem.readBytes rd.toNat (windowSize rd wr)) with
    | failed info c | done C c => rfl

theorem initRule_ignoresRecord (rd wr : BitVec 32) (status : BitVec 8) (result : Option Result) :
    Ignores (State.withRecord status result) (initRule rd wr) := by
  intro s
  have hkeys : windowKeys rd wr (s.withRecord status result) = windowKeys rd wr s := rfl
  unfold initRule
  rw [hkeys]
  cases windowKeys rd wr s with
  | error failure | ok k => rfl

theorem rekeyRule_ignoresRecord (rd wr : BitVec 32) (status : BitVec 8) (result : Option Result) :
    Ignores (State.withRecord status result) (rekeyRule rd wr) := by
  intro s
  have hkeys : windowKeys rd wr (s.withRecord status result) = windowKeys rd wr s := rfl
  unfold rekeyRule
  rw [hkeys]
  refine ite_eq_map_ite rfl ?_
  cases windowKeys rd wr s with
  | error failure | ok k => rfl

/-! ### The statements on what a command does not read -/

/-- Settles O36: the rules of DECFB and DECVF commute with replacing the outbound registers. -/
theorem inboundCommandsIgnoreOutboundRegisters : Obligations.InboundCommandsIgnoreOutboundRegisters := by
  intro rd wr seq s keo kmo ctro
  have hdecfb := decfbRule_ignoresOutbound Config.primitives rd wr
  have hdecvf := decvfRule_ignoresOutbound Config.primitives rd wr seq
  exact ⟨⟨_, rfl, hdecfb.keeps _ s, congrArg _ (hdecfb.sequence keo kmo ctro s.status s.result _ s)⟩,
    ⟨_, rfl, hdecvf.keeps _ s, congrArg _ (hdecvf.sequence keo kmo ctro s.status s.result _ s)⟩⟩

/-- Settles O37: the rule of ENC commutes with replacing the inbound registers and `PHASE`. -/
theorem outboundCommandIgnoresInboundRegisters : Obligations.OutboundCommandIgnoresInboundRegisters := by
  intro rd wr seq s kei kmi ctri phase
  have henc := encRule_ignoresInbound Config.primitives rd wr seq
  exact ⟨_, rfl, henc.keeps _ s, congrArg _ (henc.sequence kei kmi ctri phase s.status s.result _ s)⟩

/-- Settles O41: every rule ignores the record, and latching a new one leaves nothing of the old (R165). -/
theorem earlierStatusHasNoEffect : Obligations.EarlierStatusHasNoEffect := by
  intro i s status result
  cases i with
  | init rd wr =>
    have hend := (initRule_ignoresRecord rd wr status result).sequence (g := id) (fun _ => rfl) (fun _ _ => rfl)
      (.init rd wr) s
    exact if_congr Iff.rfl rfl (congrArg Host.Outcome.next hend)
  | rekey rd wr =>
    have hend := (rekeyRule_ignoresRecord rd wr status result).sequence (g := id) (fun _ => rfl) (fun _ _ => rfl)
      (.rekey rd wr) s
    exact if_congr Iff.rfl rfl (congrArg Host.Outcome.next hend)
  | decfb rd wr =>
    have hrule := decfbRule_ignoresOutbound Config.primitives rd wr
    exact congrArg Host.Outcome.next (hrule.sequence_withRecord status result _ s)
  | decvf rd wr seq =>
    have hrule := decvfRule_ignoresOutbound Config.primitives rd wr seq
    exact congrArg Host.Outcome.next (hrule.sequence_withRecord status result _ s)
  | enc rd wr seq =>
    have hrule := encRule_ignoresInbound Config.primitives rd wr seq
    exact congrArg Host.Outcome.next (hrule.sequence_withRecord status result _ s)

/-! ## The uninitialised engine (10_state.md R24, 60_exceptions.md R158) -/

theorem Failure.code_ne_statusOk (f : Failure) : f.code ≠ statusOk := by
  cases f <;> simp [Failure.code, statusOk]

/-- While `VALID = 0` INIT has a meaning whatever `PHASE` is. -/
theorem execInit_of_uninitialised (rd wr : BitVec 32) {s : State} (hvalid : s.valid = false) :
    execInit rd wr s = .next (s.sequence (.init rd wr) (initRule rd wr)) := by
  have hmid : replacesMidPacket (.init rd wr) s = false := replacesMidPacket_eq_false (by simp [hvalid])
  simp [execInit, hmid]

theorem execRekey_of_uninitialised (rd wr : BitVec 32) {s : State} (hvalid : s.valid = false) :
    execRekey rd wr s = .next (s.sequence (.rekey rd wr) (rekeyRule rd wr)) := by
  have hmid : replacesMidPacket (.rekey rd wr) s = false := replacesMidPacket_eq_false (by simp [hvalid])
  simp [execRekey, hmid]

/-- The sequencer tests the window before the rule tests `VALID` (R85). -/
theorem sequence_of_notInitialized {rule : State → Completion} {s : State} (i : Instr)
    (hrule : rule s = .raised s .notInitialized) :
    s.sequence i rule = s.fail i.wr (if i.wellFormed s.cap then .notInitialized else .illegalCommand) := by
  by_cases hwindow : i.wellFormed s.cap = true
  · rw [sequence_of_wellFormed hwindow, hrule, if_pos hwindow]
    rfl
  · rw [if_neg hwindow]
    exact sequence_of_malformed (Bool.not_eq_true _ ▸ hwindow)

/-- While `VALID = 0` every command but INIT fails, for its window or for want of a session. -/
theorem exec_of_uninitialised {i : Instr} {s : State} (hvalid : s.valid = false) (hinit : ∀ rd wr, i ≠ .init rd wr) :
    exec i s = .next (s.fail i.wr (if i.wellFormed s.cap then .notInitialized else .illegalCommand)) := by
  cases i with
  | init rd wr => exact absurd rfl (hinit rd wr)
  | rekey rd wr =>
    exact (execRekey_of_uninitialised rd wr hvalid).trans
      (congrArg _ (sequence_of_notInitialized _ (if_pos hvalid)))
  | decfb | decvf | enc => exact congrArg Host.Outcome.next (sequence_of_notInitialized _ (if_pos hvalid))

/-- INIT either fails and leaves the registers to what they were, or writes all six of them. -/
theorem sequence_initRule_withRegisters (rd wr : BitVec 32) (s : State) (r : KeyRegisters) :
    (∃ f, s.sequence (.init rd wr) (initRule rd wr) = s.fail wr f ∧
      (s.withRegisters r).sequence (.init rd wr) (initRule rd wr) = (s.withRegisters r).fail wr f) ∨
    (∃ k, s.sequence (.init rd wr) (initRule rd wr) = (s.loadKeys k).succeed wr [] ∧
      (s.withRegisters r).sequence (.init rd wr) (initRule rd wr) = (s.loadKeys k).succeed wr []) := by
  have hkeys : windowKeys rd wr (s.withRegisters r) = windowKeys rd wr s := rfl
  by_cases hwindow : (Instr.init rd wr).wellFormed s.cap = true
  · have hwindow' : (Instr.init rd wr).wellFormed (s.withRegisters r).cap = true := hwindow
    rw [sequence_of_wellFormed hwindow, sequence_of_wellFormed hwindow']
    simp only [initRule, hkeys]
    cases windowKeys rd wr s with
    | error f => exact .inl ⟨f, rfl, rfl⟩
    | ok k => exact .inr ⟨k, rfl, rfl⟩
  · rw [Bool.not_eq_true] at hwindow
    exact .inl ⟨.illegalCommand, sequence_of_malformed hwindow, sequence_of_malformed hwindow⟩

/-- Settles O40: while `VALID = 0` only INIT can succeed, and then it writes all six registers. -/
theorem registersAreUnreadBeforeInit : Obligations.RegistersAreUnreadBeforeInit := by
  intro i s r hvalid
  have hvalid' : (s.withRegisters r).valid = false := hvalid
  by_cases hinit : ∃ rd wr, i = .init rd wr
  · obtain ⟨rd, wr, rfl⟩ := hinit
    refine ⟨_, execInit_of_uninitialised rd wr hvalid, ?_⟩
    rw [exec, execInit_of_uninitialised rd wr hvalid']
    rcases sequence_initRule_withRegisters rd wr s r with ⟨f, hend, hend'⟩ | ⟨k, hend, hend'⟩
    · rw [hend, hend']
      exact ⟨fun hok => absurd hok f.code_ne_statusOk, fun _ => rfl⟩
    · rw [hend, hend']
      exact ⟨fun _ => rfl, fun hfail => absurd rfl hfail⟩
  · push Not at hinit
    refine ⟨_, exec_of_uninitialised hvalid hinit, fun hok => ?_, fun _ => ?_⟩
    · exact absurd hok (Failure.code_ne_statusOk _)
    · exact exec_of_uninitialised hvalid' hinit

end Sys2Proof.Machine

/-! ## The buffer space (20_memory.md R50 to R54) -/

namespace Sys2Proof.Machine

open Sys2Proof.Config (Primitives)

/-! ### The host's stores -/

/-- A stored byte is read at its own offset. -/
theorem Memory.read_writeBytes_inside {m : Memory} (hm : m.wf = true) (off : Nat) (v : List Byte) {j : Nat}
    (h : j < v.length) : (m.writeBytes off v).read (off + j) = v[j] := by
  have hj : j < ((m.writeBytes off v).readBytes off v.length).length := by rwa [Memory.length_readBytes]
  rw [← Memory.getElem_readBytes _ off v.length j hj]
  exact List.getElem_of_eq (Memory.readBytes_writeBytes_same hm off v) hj

/-- Settles O12: the step takes the store, whose bytes are read back inside its range and leave the rest alone. -/
theorem hostStoreWritesItsBytes : Obligations.HostStoreWritesItsBytes := by
  intro s off bytes rest hm hin
  have hstep : step s = ({ s with inputs := rest } : State).hostStore off bytes := by
    simp only [step, stepInput, hin, runInput]
  refine ⟨fun hfits => ⟨s.mem.writeBytes off bytes, hstep.trans (if_pos hfits), ?_, ?_⟩, fun hbeyond => ?_⟩
  · exact fun j hj => Memory.read_writeBytes_inside hm off bytes hj
  · exact fun a ha => Memory.read_writeBytes_outside s.mem ha
  · exact hstep.trans (if_neg (Nat.not_le.mpr hbeyond))

/-! ### Where a command stores (R52) -/

/-- DECFB stores one block at the start of its window (R101). -/
theorem read_afterDecfb_outside (ks : Bytes 16) (rd : BitVec 32) (s : State) {a : Nat}
    (ha : ¬ (rd.toNat ≤ a ∧ a < rd.toNat + 16)) : (afterDecfb ks rd s).mem.read a = s.mem.read a := by
  have hblock : (xorBytes (s.mem.readBytes rd.toNat 16) ks.toList).length = 16 := by simp [Memory.length_readBytes]
  exact Memory.read_writeBytes_outside s.mem (by omega)

/-- ENC stores a ciphertext as long as its window, and 32 tag bytes after it (R121). -/
theorem encUnder_read_outside {p : Primitives} {rd wr seq : BitVec 32} {s t : State}
    (h : encUnder p rd wr seq s = .next t) {a : Nat} (ha : ¬ (rd.toNat ≤ a ∧ a < wr.toNat + 32)) :
    t.mem.read a = s.mem.read a := by
  rcases encUnder_cases p rd wr seq s with ⟨f, -, hend⟩ | ⟨T, C, c, -, hT, hcrypt, -, hord, -, hend⟩
  · cases hend.symm.trans h
    rfl
  · cases hend.symm.trans h
    have hC : C.length = wr.toNat - rd.toNat := (ctrCrypt_done hcrypt).1.trans (Memory.length_readBytes _ _ _)
    calc ((s.mem.writeBytes rd.toNat C).writeBytes wr.toNat T).read a
        = (s.mem.writeBytes rd.toNat C).read a := Memory.read_writeBytes_outside _ (by omega)
      _ = s.mem.read a := Memory.read_writeBytes_outside _ (by omega)

/-- Settles O30: of the effects of a command only `peeked` and `sent` store, each inside the bytes R52 gives it. -/
theorem commandsStoreOnlyWhereTheyMay : Obligations.CommandsStoreOnlyWhereTheyMay := by
  intro p i s t hexec a ha
  cases effect_of_execUnder hexec with
  | failed | loaded | rekeyed | consumed => rfl
  | peeked rd wr ks => exact read_afterDecfb_outside ks rd s ha
  | sent rd wr seq C T c => exact encUnder_read_outside hexec ha

/-! ### What a command reads (R51, R52): two runs from memories that agree on the window -/

/-- `m'` reads as `m` in the window; both are canonical, so that what is stored in them is read back. -/
structure AgreeOnWindow (rd wr : BitVec 32) (m m' : Memory) : Prop where
  canonical : m.wf = true
  canonical' : m'.wf = true
  reads : ∀ a, InWindow rd wr a → m'.read a = m.read a

/-- Two memories, grown from `m0` and `m0'` by the same stores: each byte was written alike or left alone in both. -/
def StoredAlike (m0 m0' m m' : Memory) : Prop :=
  ∀ a, m.read a = m'.read a ∨ (m.read a = m0.read a ∧ m'.read a = m0'.read a)

theorem StoredAlike.start (m0 m0' : Memory) : StoredAlike m0 m0' m0 m0' := fun _ => .inr ⟨rfl, rfl⟩

/-- A store of the same bytes at the same offset: inside it both memories read those bytes. -/
theorem StoredAlike.writeBytes {m0 m0' m m' : Memory} (h : StoredAlike m0 m0' m m') (hm : m.wf = true)
    (hm' : m'.wf = true) (off : Nat) (v : List Byte) :
    StoredAlike m0 m0' (m.writeBytes off v) (m'.writeBytes off v) := by
  intro a
  by_cases ha : off ≤ a ∧ a < off + v.length
  · obtain ⟨j, rfl⟩ := Nat.exists_eq_add_of_le ha.1
    have hj : j < v.length := by omega
    exact .inl ((Memory.read_writeBytes_inside hm off v hj).trans (Memory.read_writeBytes_inside hm' off v hj).symm)
  · have hout : a < off ∨ off + v.length ≤ a := by omega
    rw [Memory.read_writeBytes_outside m hout, Memory.read_writeBytes_outside m' hout]
    exact h a

/-- Two states that differ in the memory alone, and there only as their starts `m0` and `m0'` did. -/
structure SameEffect (m0 m0' : Memory) (t t' : State) : Prop where
  fields : t = { t' with mem := t.mem }
  stores : StoredAlike m0 m0' t.mem t'.mem

theorem SameEffect.start (s : State) (m : Memory) : SameEffect s.mem m s { s with mem := m } :=
  ⟨rfl, StoredAlike.start s.mem m⟩

theorem SameEffect.post {m0 m0' : Memory} {t t' : State} (h : SameEffect m0 m0' t t') (r : Result) :
    SameEffect m0 m0' (t.post r) (t'.post r) :=
  ⟨congrArg (State.post r) h.fields, h.stores⟩

/-- Two ends of a rule with one result, in states that differ in the memory alone. -/
inductive SameEnd (m0 m0' : Memory) : Completion → Completion → Prop where
  | done {t t' : State} (newwr : BitVec 32) (payload : List Byte) (h : SameEffect m0 m0' t t') :
      SameEnd m0 m0' (.done t newwr payload) (.done t' newwr payload)
  | raised {t t' : State} (f : Failure) (h : SameEffect m0 m0' t t') : SameEnd m0 m0' (.raised t f) (.raised t' f)

theorem SameEnd.finish {m0 m0' : Memory} {c c' : Completion} (h : SameEnd m0 m0' c c') (wr : BitVec 32) :
    SameEffect m0 m0' (c.finish wr) (c'.finish wr) := by
  cases h with
  | done newwr payload h => exact h.post _
  | raised f h => exact h.post _

/-- A failure before the first write. -/
theorem SameEnd.failed (s : State) (m : Memory) (f : Failure) :
    SameEnd s.mem m (.raised s f) (.raised { s with mem := m } f) := .raised f (.start s m)

/-- A check that reads no memory: its two outcomes are compared one by one. -/
theorem SameEnd.ite {P : Prop} [Decidable P] {m0 m0' : Memory} {a b a' b' : Completion}
    (ha : P → SameEnd m0 m0' a a') (hb : ¬ P → SameEnd m0 m0' b b') :
    SameEnd m0 m0' (if P then a else b) (if P then a' else b') := by
  by_cases hP : P
  · rw [if_pos hP, if_pos hP]
    exact ha hP
  · rw [if_neg hP, if_neg hP]
    exact hb hP

/-- The sequencer's own check reads `CAP` and the operands only. -/
theorem SameEnd.sequence {rule : State → Completion} {s : State} {m : Memory}
    (h : SameEnd s.mem m (rule s) (rule { s with mem := m })) (i : Instr) :
    SameEffect s.mem m (s.sequence i rule) (({ s with mem := m } : State).sequence i rule) :=
  (SameEnd.ite (fun _ => h) (fun _ => .failed s m .illegalCommand)).finish i.wr

/-! #### The reads of a window -/

theorem AgreeOnWindow.readBytes {rd wr : BitVec 32} {m m' : Memory} (h : AgreeOnWindow rd wr m m') {off n : Nat}
    (hlo : rd.toNat ≤ off) (hhi : off + n ≤ rd.toNat + windowSize rd wr) : m'.readBytes off n = m.readBytes off n := by
  unfold windowSize at hhi
  exact Memory.readBytes_congr fun a ha ha' => h.reads a ⟨by omega, by omega⟩

theorem parseKeys_error {m : Memory} {rd N : Nat} {f : Failure} (h : parseKeys m rd N = .error f) :
    f = .argumentError := by
  unfold parseKeys at h
  dsimp only at h
  split_ifs at h <;> exact (Except.error.inj h).symm

/-- What a window parses to is a function of its bytes: it is the material whose key block they are, if there is one. -/
theorem parseKeys_congr {m m' : Memory} {rd N : Nat} (h : m'.readBytes rd N = m.readBytes rd N) :
    parseKeys m' rd N = parseKeys m rd N := by
  cases hp : parseKeys m rd N with
  | ok k =>
    obtain ⟨hblock, hexpr⟩ := block_of_parseKeys hp
    exact parseKeys_of_block (h.trans hblock) hexpr
  | error f =>
    cases hp' : parseKeys m' rd N with
    | ok k =>
      obtain ⟨hblock, hexpr⟩ := block_of_parseKeys hp'
      exact nomatch hp.symm.trans (parseKeys_of_block (h.symm.trans hblock) hexpr)
    | error g => rw [parseKeys_error hp, parseKeys_error hp']

theorem AgreeOnWindow.windowKeys {rd wr : BitVec 32} {s : State} {m : Memory} (h : AgreeOnWindow rd wr s.mem m) :
    windowKeys rd wr { s with mem := m } = windowKeys rd wr s := by
  unfold Machine.windowKeys
  rw [parseKeys_congr (h.readBytes (Nat.le_refl _) (Nat.le_refl _))]

/-! #### The rules: each reads its window only, and stores what it computed from it -/

/-- The verification of DECVF reads no memory: it is given the bytes of the window. -/
theorem decvfVerify_sameEnd (p : Primitives) (wr seq : BitVec 32) (P T : List Byte) (u : State) (m : Memory) :
    SameEnd u.mem m (decvfVerify p wr seq P T u) (decvfVerify p wr seq P T { u with mem := m }) := by
  unfold decvfVerify
  dsimp only
  cases p.MAC u.kmi (macMsgIn seq (BitVec.ofNat 32 (be (slice P 0 4))) P) with
  | fail info => exact .failed u m _
  | ok X =>
    refine .ite (fun _ => .failed u m _) fun _ => ?_
    cases stripPadding P with
    | error f => exact .failed u m f
    | ok payload => exact .done wr payload (.start u m)

section
variable {rd wr : BitVec 32} {s : State} {m : Memory} (h : AgreeOnWindow rd wr s.mem m)
include h

theorem initRule_sameEnd : SameEnd s.mem m (initRule rd wr s) (initRule rd wr { s with mem := m }) := by
  unfold initRule
  rw [h.windowKeys]
  cases Machine.windowKeys rd wr s with
  | error f => exact .failed s m f
  | ok k => exact .done wr [] ⟨rfl, .start s.mem m⟩

theorem rekeyRule_sameEnd : SameEnd s.mem m (rekeyRule rd wr s) (rekeyRule rd wr { s with mem := m }) := by
  unfold rekeyRule
  rw [h.windowKeys]
  refine .ite (fun _ => .failed s m _) fun _ => ?_
  cases Machine.windowKeys rd wr s with
  | error f => exact .failed s m f
  | ok k => exact .done wr [] ⟨rfl, .start s.mem m⟩

theorem decfbRule_sameEnd (p : Primitives) :
    SameEnd s.mem m (decfbRule p rd wr s) (decfbRule p rd wr { s with mem := m }) := by
  unfold decfbRule
  refine .ite (fun _ => .failed s m _) fun _ => .ite (fun _ => .failed s m _) fun hN => ?_
  have hblock : m.readBytes rd.toNat 16 = s.mem.readBytes rd.toNat 16 := h.readBytes (Nat.le_refl _) (by omega)
  dsimp only
  cases p.E s.kei s.ctri with
  | fail info => exact .failed s m _
  | ok ks =>
    rw [hblock]
    exact .done wr [] ⟨rfl, (StoredAlike.start s.mem m).writeBytes h.canonical h.canonical' _ _⟩

theorem decvfRule_sameEnd (p : Primitives) (seq : BitVec 32) :
    SameEnd s.mem m (decvfRule p rd wr seq s) (decvfRule p rd wr seq { s with mem := m }) := by
  unfold decvfRule
  refine .ite (fun _ => .failed s m _) fun _ => .ite (fun _ => .failed s m _) fun hN => ?_
  have hfirst : m.readBytes rd.toNat 16 = s.mem.readBytes rd.toNat 16 := h.readBytes (Nat.le_refl _) (by omega)
  have hrest : m.readBytes (rd.toNat + 16) (windowSize rd wr - 48)
      = s.mem.readBytes (rd.toNat + 16) (windowSize rd wr - 48) := h.readBytes (by omega) (by omega)
  have htag : m.readBytes (rd.toNat + windowSize rd wr - 32) 32
      = s.mem.readBytes (rd.toNat + windowSize rd wr - 32) 32 := h.readBytes (by omega) (by omega)
  dsimp only
  rw [hfirst, hrest, htag]
  cases ctrCrypt (p.E s.kei) s.ctri (s.mem.readBytes (rd.toNat + 16) (windowSize rd wr - 48)) with
  | failed info c => exact .failed (afterDecvf c s) m _
  | done rest c => exact decvfVerify_sameEnd p wr seq _ _ (afterDecvf c s) m

theorem encRule_sameEnd (p : Primitives) (seq : BitVec 32) :
    SameEnd s.mem m (encRule p rd wr seq s) (encRule p rd wr seq { s with mem := m }) := by
  have hwindow : m.readBytes rd.toNat (windowSize rd wr) = s.mem.readBytes rd.toNat (windowSize rd wr) :=
    h.readBytes (Nat.le_refl _) (Nat.le_refl _)
  unfold encRule
  refine .ite (fun _ => .failed s m _) fun _ => .ite (fun _ => .failed s m _) fun _ => ?_
  dsimp only
  rw [hwindow]
  cases p.MAC s.kmo (macMsgOut seq (s.mem.readBytes rd.toNat (windowSize rd wr))) with
  | fail info => exact .failed s m _
  | ok T =>
    refine .ite (fun _ => .failed s m _) fun _ => ?_
    cases ctrCrypt (p.E s.keo) s.ctro (s.mem.readBytes rd.toNat (windowSize rd wr)) with
    | failed info c => exact .failed s m _
    | done C c =>
      have hcipher := (StoredAlike.start s.mem m).writeBytes h.canonical h.canonical' rd.toNat C
      exact .done (newWr wr) [] ⟨rfl, hcipher.writeBytes (Memory.wf_writeBytes h.canonical _ _)
        (Memory.wf_writeBytes h.canonical' _ _) wr.toNat T⟩

end

/-! #### The commands -/

/-- The mid-packet test reads the key block of the window and no other byte (R93). -/
theorem AgreeOnWindow.replacesMidPacket {i : Instr} {s : State} {m : Memory} (h : AgreeOnWindow i.rd i.wr s.mem m) :
    replacesMidPacket i { s with mem := m } = replacesMidPacket i s := by
  unfold Machine.replacesMidPacket
  rw [h.windowKeys]

/-- Two outcomes of a command: refused for one reason, or next states that differ in the memory alone. -/
inductive SameOutcome (m0 m0' : Memory) :
    Host.Outcome State Fault Refusal → Host.Outcome State Fault Refusal → Prop where
  | next {t t' : State} (h : SameEffect m0 m0' t t') : SameOutcome m0 m0' (.next t) (.next t')
  | refused (r : Refusal) : SameOutcome m0 m0' (.refused r) (.refused r)

/-- A key command: both runs are refused mid-packet, or both follow its rule. -/
theorem AgreeOnWindow.refusedOrSequenced {i : Instr} {s : State} {m : Memory} {rule : State → Completion}
    (h : AgreeOnWindow i.rd i.wr s.mem m) (hrule : SameEnd s.mem m (rule s) (rule { s with mem := m })) :
    SameOutcome s.mem m
      (if Machine.replacesMidPacket i s then .refused .keyReplacementMidPacket else .next (s.sequence i rule))
      (if Machine.replacesMidPacket i { s with mem := m } then .refused .keyReplacementMidPacket
        else .next (({ s with mem := m } : State).sequence i rule)) := by
  rw [h.replacesMidPacket]
  cases Machine.replacesMidPacket i s with
  | true => exact .refused _
  | false => exact .next (hrule.sequence i)

/-- Each command from two memories that agree on its window. -/
theorem execUnder_sameOutcome (p : Primitives) {i : Instr} {s : State} {m : Memory}
    (h : AgreeOnWindow i.rd i.wr s.mem m) :
    SameOutcome s.mem m (execUnder p i s) (execUnder p i { s with mem := m }) := by
  cases i with
  | init rd wr => exact h.refusedOrSequenced (initRule_sameEnd h)
  | rekey rd wr => exact h.refusedOrSequenced (rekeyRule_sameEnd h)
  | decfb rd wr => exact .next ((decfbRule_sameEnd h p).sequence _)
  | decvf rd wr seq => exact .next ((decvfRule_sameEnd h p seq).sequence _)
  | enc rd wr seq => exact .next ((encRule_sameEnd h p seq).sequence _)

/-- Settles O31: each rule computes the same from the two memories, and stores it in the same place. -/
theorem commandsReadOnlyTheirWindow : Obligations.CommandsReadOnlyTheirWindow := by
  intro i s m hs hm hwindow
  have hsame := execUnder_sameOutcome Config.primitives (s := s) (m := m) ⟨hs, hm, hwindow⟩
  rw [← execUsesTheEnginesPrimitives, ← execUsesTheEnginesPrimitives] at hsame
  generalize exec i s = o, exec i { s with mem := m } = o' at hsame ⊢
  cases hsame with
  | next h =>
    refine ⟨fun r => ⟨fun hr => (nomatch hr), fun hr => (nomatch hr)⟩, ?_⟩
    rintro _ ⟨⟩
    exact ⟨_, rfl, h.fields, h.stores⟩
  | refused r => exact ⟨fun _ => Iff.rfl, fun _ ht => nomatch ht⟩

end Sys2Proof.Machine


/-! ## The command descriptor (30_encoding.md R71 to R75) -/

namespace Sys2Proof

/-! ### Fields of a byte string: a slice is a range of digits in base 256 (00_scope.md R10) -/

theorem slice_append_slice (s : List Byte) {i j k : Nat} (hij : i ≤ j) (hjk : j ≤ k) :
    slice s i j ++ slice s j k = slice s i k := by
  have hlen : k - i = (j - i) + (k - j) := by omega
  simp only [slice, hlen, List.take_add, List.drop_drop, Nat.add_sub_cancel' hij]

/-- Strings that agree on a range agree on the ranges inside it. -/
theorem slice_congr {s s' : List Byte} {i j a b : Nat} (h : slice s i j = slice s' i j) (ha : i ≤ a) (hb : b ≤ j) :
    slice s a b = slice s' a b := by
  have inner : ∀ t : List Byte, slice t a b = slice (slice t i j) (a - i) (b - i) := fun t => by
    simp only [slice, List.drop_take, List.drop_drop, List.take_take, Nat.add_sub_cancel' ha]
    congr 1
    omega
  rw [inner s, inner s', h]

theorem length_slice (s : List Byte) {i j : Nat} (hj : j ≤ s.length) : (slice s i j).length = j - i := by
  simp only [slice, List.length_take, List.length_drop]
  omega

/-- The bytes from `k` on are the low digits, those before it the high ones. -/
theorem be_div_mod (s : List Byte) (k : Nat) :
    be s / 256 ^ (s.length - k) = be (s.take k) ∧ be s % 256 ^ (s.length - k) = be (s.drop k) := by
  have hlow : be (s.drop k) < 256 ^ (s.length - k) := List.length_drop (l := s) ▸ be_lt (s.drop k)
  have hsum : be s = be (s.take k) * 256 ^ (s.length - k) + be (s.drop k) := by
    rw [← List.length_drop, ← be_append, List.take_append_drop]
  refine (Nat.div_mod_unique (by positivity)).mpr ⟨?_, hlow⟩
  rw [hsum, Nat.mul_comm, Nat.add_comm]

theorem be_take (s : List Byte) (k : Nat) : be (s.take k) = be s / 256 ^ (s.length - k) := (be_div_mod s k).1.symm

theorem be_drop (s : List Byte) (k : Nat) : be (s.drop k) = be s % 256 ^ (s.length - k) := (be_div_mod s k).2.symm

/-- The value of a slice is the digits `i` to `j` of the value of the string. -/
theorem be_slice (s : List Byte) {i j : Nat} (hij : i ≤ j) (hj : j ≤ s.length) :
    be (slice s i j) = be s / 256 ^ (s.length - j) % 256 ^ (j - i) := by
  have hlow : s.length - i - (j - i) = s.length - j := by omega
  have hsplit : s.length - i = (j - i) + (s.length - j) := by omega
  rw [slice, be_take, be_drop, List.length_drop, hlow, hsplit, pow_add, Nat.mod_mul_left_div_self]

/-- A slice is the string of its own value. -/
theorem beBytes_be_slice (s : List Byte) {i j : Nat} (hj : j ≤ s.length) :
    beBytes (j - i) (be (slice s i j)) = slice s i j := by
  rw [← length_slice s hj, beBytes_be]

/-! ### The 32-bit fields of a descriptor -/

theorem field32_of_slice {d : List Byte} {i : Nat} {v : BitVec 32} (h : slice d i (i + 4) = be32 v) :
    field32 d i = v := by
  rw [field32, h, be_be32, BitVec.ofNat_toNat, BitVec.setWidth_eq]

theorem field32_congr {d d' : List Byte} {i : Nat} (h : slice d i (i + 4) = slice d' i (i + 4)) :
    field32 d i = field32 d' i := by
  rw [field32, field32, h]

theorem be32_field32 (d : List Byte) {i : Nat} (h : i + 4 ≤ d.length) : be32 (field32 d i) = slice d i (i + 4) := by
  have hlt : be (slice d i (i + 4)) < 2 ^ 32 := by
    have hlt := be_lt (slice d i (i + 4))
    rw [length_slice d h, Nat.add_sub_cancel_left] at hlt
    exact hlt
  have hfield := beBytes_be_slice d (i := i) h
  rw [Nat.add_sub_cancel_left] at hfield
  rw [be32, field32, BitVec.toNat_ofNat, Nat.mod_eq_of_lt hlt, hfield]

/-! ### The decoder by the rows of the opcode table -/

/-- `OP` of the command's row (R72). -/
def Instr.opcode : Instr → Nat
  | .init _ _ => 1
  | .rekey _ _ => 2
  | .decfb _ _ => 3
  | .decvf _ _ _ => 4
  | .enc _ _ _ => 5

theorem Instr.opcode_lt (i : Instr) : i.opcode < 256 := by
  cases i <;> simp [opcode]

/-- The `SEQ` field the encoder emits: zero for a command that takes none (R82). -/
def Instr.emittedSeq : Instr → BitVec 32
  | .init _ _ | .rekey _ _ | .decfb _ _ => 0#32
  | .decvf _ _ seq | .enc _ _ seq => seq

/-- The command of an opcode and three field values (R72). -/
def commandOf (op : Nat) (seq rd wr : BitVec 32) : Except DecodeRefusal Instr :=
  match op with
  | 1 => .ok (.init rd wr)
  | 2 => .ok (.rekey rd wr)
  | 3 => .ok (.decfb rd wr)
  | 4 => .ok (.decvf rd wr seq)
  | 5 => .ok (.enc rd wr seq)
  | _ => .error .reservedOpcode

/-- On 16 bytes the decoder looks at `RSV`, then at `OP`. -/
theorem decode_of_length {d : List Byte} (h : d.length = 16) :
    decode d = if be (slice d 1 4) ≠ 0 then .error .reservedBits
      else commandOf (be (slice d 0 1)) (fieldSeq d) (fieldRd d) (fieldWr d) := by
  unfold decode
  rw [if_neg (not_not.mpr h)]
  rfl

theorem decode_of_wrong_length {d : List Byte} (h : d.length ≠ 16) : decode d = .error .wrongLength := if_pos h

theorem commandOf_eq_ok_iff {op : Nat} {seq rd wr : BitVec 32} {i : Instr} :
    commandOf op seq rd wr = .ok i ↔
      op = i.opcode ∧ rd = i.rd ∧ wr = i.wr ∧ (i.takesSeq = true → seq = i.emittedSeq) := by
  constructor
  · intro h
    unfold commandOf at h
    split at h
    case h_1 | h_2 | h_3 =>
      cases h
      exact ⟨rfl, rfl, rfl, nofun⟩
    case h_4 | h_5 =>
      cases h
      exact ⟨rfl, rfl, rfl, fun _ => rfl⟩
    case h_6 => exact nomatch h
  · rintro ⟨rfl, rfl, rfl, hseq⟩
    cases i with
    | init | rekey | decfb => rfl
    | decvf | enc => rw [hseq rfl]; rfl

/-- The opcodes below 4 take no sequence number (R73). -/
theorem commandOf_ignores_seq {op : Nat} (hop : 1 ≤ op ∧ op ≤ 3) (seq seq' rd wr : BitVec 32) :
    commandOf op seq rd wr = commandOf op seq' rd wr := by
  obtain rfl | rfl | rfl : op = 1 ∨ op = 2 ∨ op = 3 := by omega
  all_goals rfl

/-- A byte string is a descriptor that spells the command `i` (R71 to R73). -/
structure Spells (d : List Byte) (i : Instr) : Prop where
  length : d.length = 16
  op : be (slice d 0 1) = i.opcode
  rsv : be (slice d 1 4) = 0
  rd : fieldRd d = i.rd
  wr : fieldWr d = i.wr
  seq : i.takesSeq = true → fieldSeq d = i.emittedSeq

/-- The decoder answers a command exactly when the descriptor spells it. -/
theorem decode_eq_ok_iff {d : List Byte} {i : Instr} : decode d = .ok i ↔ Spells d i := by
  by_cases hlength : d.length = 16
  · rw [decode_of_length hlength]
    by_cases hrsv : be (slice d 1 4) = 0
    · rw [if_neg (not_not.mpr hrsv), commandOf_eq_ok_iff]
      exact ⟨fun ⟨hop, hrd, hwr, hseq⟩ => ⟨hlength, hop, hrsv, hrd, hwr, hseq⟩,
        fun h => ⟨h.op, h.rd, h.wr, h.seq⟩⟩
    · rw [if_pos hrsv]
      exact ⟨nofun, fun h => absurd h.rsv hrsv⟩
  · rw [decode_of_wrong_length hlength]
    exact ⟨nofun, fun h => absurd h.length hlength⟩

/-! ### The encoder -/

theorem encodingShape (i : Instr) : Laws.EncodingShape.Statement i := by
  cases i with
  | init rd wr => exact Laws.EncodingShape.init rd wr
  | rekey rd wr => exact Laws.EncodingShape.rekey rd wr
  | decfb rd wr => exact Laws.EncodingShape.decfb rd wr
  | decvf rd wr seq => exact Laws.EncodingShape.decvf rd wr seq
  | enc rd wr seq => exact Laws.EncodingShape.enc rd wr seq

theorem encode_eq_descriptor (i : Instr) :
    encode i = descriptor (BitVec.ofNat 8 i.opcode) i.emittedSeq i.rd i.wr := by
  cases i <;> rfl

theorem be_slice_encode_op (i : Instr) : be (slice (encode i) 0 1) = i.opcode := by
  cases i <;> rfl

theorem slice_encode_seq (i : Instr) : slice (encode i) 4 8 = be32 i.emittedSeq := by
  cases i <;> rfl

theorem spells_encode (i : Instr) : Spells (encode i) i := by
  obtain ⟨hlength, -, -, hrsv, hrd, hwr, -⟩ := encodingShape i
  exact ⟨hlength, be_slice_encode_op i, hrsv, field32_of_slice hrd, field32_of_slice hwr,
    fun _ => field32_of_slice (slice_encode_seq i)⟩

/-- Settles O2: the encoder's descriptor spells its command. -/
theorem encodedCommandDecodesToItself : Obligations.EncodedCommandDecodesToItself := fun i =>
  ⟨(spells_encode i).length, decode_eq_ok_iff.mpr (spells_encode i)⟩

/-! ### A descriptor and the encoding of its command -/

/-- `OP` and `RSV` of a descriptor are those of its command's encoding. -/
theorem Spells.slice_header {d : List Byte} {i : Instr} (h : Spells d i) :
    slice d 0 4 = [BitVec.ofNat 8 i.opcode, 0#8, 0#8, 0#8] := by
  have hlen := h.length
  have hop : slice d 0 1 = beBytes 1 i.opcode := by
    rw [← beBytes_be_slice d (j := 1) (by omega), h.op]
  have hrsv : slice d 1 4 = beBytes 3 0 := by
    rw [← beBytes_be_slice d (j := 4) (by omega), h.rsv]
  calc slice d 0 4
      = slice d 0 1 ++ slice d 1 4 := (slice_append_slice d (Nat.zero_le 1) (by omega)).symm
    _ = beBytes 1 i.opcode ++ beBytes 3 0 := by rw [hop, hrsv]
    _ = [BitVec.ofNat 8 i.opcode, 0#8, 0#8, 0#8] := by simp [beBytes]

theorem Spells.slice_window {d : List Byte} {i : Instr} (h : Spells d i) :
    slice d 8 16 = be32 i.rd ++ be32 i.wr := by
  have hlen := h.length
  rw [← h.rd, ← h.wr, fieldRd, fieldWr, be32_field32 d (by omega), be32_field32 d (by omega),
    slice_append_slice d (by omega) (by omega)]

/-- `SEQ` as it is encoded: the descriptor's own where the command takes one, else zero. -/
theorem Spells.be32_emittedSeq {d : List Byte} {i : Instr} (h : Spells d i) :
    be32 i.emittedSeq = if i.takesSeq then slice d 4 8 else [0#8, 0#8, 0#8, 0#8] := by
  by_cases hseq : i.takesSeq = true
  · have hlen := h.length
    rw [if_pos hseq, ← h.seq hseq, fieldSeq, be32_field32 d (by omega)]
  · rw [if_neg hseq, ← slice_encode_seq]
    obtain ⟨-, -, -, -, -, -, hzero⟩ := encodingShape i
    exact hzero (Bool.eq_false_of_not_eq_true hseq)

/-- Settles O3: the encoding is made of the fields of the descriptor that spells the command. -/
theorem decodedDescriptorIsItsEncoding : Obligations.DecodedDescriptorIsItsEncoding := by
  intro d i hd
  have h : Spells d i := decode_eq_ok_iff.mp hd
  rw [encode_eq_descriptor, descriptor, h.be32_emittedSeq, h.slice_header, h.slice_window,
    List.append_assoc _ (be32 i.rd)]

/-! ### The `SEQ` field that a command ignores -/

/-- Settles O5: off `SEQ` the decoder sees the same fields, and opcodes 1 to 3 take no `SEQ`. -/
theorem ignoredSequenceFieldHasNoEffect : Obligations.IgnoredSequenceFieldHasNoEffect := by
  intro d d' hd hd' hheader hwindow hlow hhigh
  have hop : slice d 0 1 = slice d' 0 1 := slice_congr hheader (by omega) (by omega)
  have hrsv : slice d 1 4 = slice d' 1 4 := slice_congr hheader (by omega) (by omega)
  have hrd : fieldRd d = fieldRd d' := field32_congr (slice_congr hwindow (by omega) (by omega))
  have hwr : fieldWr d = fieldWr d' := field32_congr (slice_congr hwindow (by omega) (by omega))
  rw [decode_of_length hd, decode_of_length hd', ← hop, ← hrsv, ← hrd, ← hwr,
    commandOf_ignores_seq ⟨hlow, hhigh⟩ (fieldSeq d) (fieldSeq d')]

/-! ### A descriptor as a 128-bit word (R71, R72) -/

theorem be_beBytes_word (w : BitVec 128) : be (beBytes 16 w.toNat) = w.toNat := by
  rw [be_beBytes]
  exact Nat.mod_eq_of_lt w.isLt

/-- The 32-bit field at byte `i` is the 32 bits of the word that end `8 * (12 - i)` bits above its lowest. -/
theorem field32_beBytes (w : BitVec 128) {i : Nat} (hi : i ≤ 12) :
    field32 (beBytes 16 w.toNat) i = w.extractLsb' (8 * (12 - i)) 32 := by
  have hlen : (beBytes 16 w.toNat).length = 16 := length_beBytes 16 _
  have hlow : 16 - (i + 4) = 12 - i := by omega
  apply BitVec.eq_of_toNat_eq
  rw [field32, be_slice _ (by omega) (by omega), hlen, be_beBytes_word, hlow, BitVec.toNat_ofNat,
    BitVec.extractLsb'_toNat, Nat.shiftRight_eq_div_pow, pow_mul, Nat.add_sub_cancel_left]
  exact Nat.mod_mod _ _

/-- `OP` and `RSV` are the top 32 bits of the word. -/
theorem header_beBytes_iff (w : BitVec 128) (op : Nat) :
    (be (slice (beBytes 16 w.toNat) 0 1) = op ∧ be (slice (beBytes 16 w.toNat) 1 4) = 0) ↔
      w.toNat / 2 ^ 96 = op * 2 ^ 24 := by
  have hlen : (beBytes 16 w.toNat).length = 16 := length_beBytes 16 _
  rw [be_slice _ (by omega) (by omega), be_slice _ (by omega) (by omega), hlen, be_beBytes_word]
  have := w.isLt
  omega

/-- The mask of R72 keeps the top 32 bits. -/
theorem and_mask_eq_iff (w : BitVec 128) {op : Nat} (hop : op < 256) :
    w &&& 0xFFFFFFFF000000000000000000000000#128 = BitVec.ofNat 128 (op * 2 ^ 120) ↔
      w.toNat / 2 ^ 96 = op * 2 ^ 24 := by
  have hmask : 0xFFFFFFFF000000000000000000000000#128 = BitVec.allOnes 128 <<< 96 := rfl
  rw [hmask, ← BitVec.shiftLeft_ushiftRight, ← BitVec.toNat_inj, BitVec.toNat_shiftLeft,
    BitVec.toNat_ushiftRight, BitVec.toNat_ofNat, Nat.shiftRight_eq_div_pow, Nat.shiftLeft_eq]
  have := w.isLt
  omega

/-- A row of the opcode table: mask and match say what the decoder says of the command with the word's operands. -/
theorem match_iff_decode {w : BitVec 128} {i : Instr} (op : Nat) (hop : i.opcode = op)
    (hrd : i.rd = w.extractLsb' 32 32) (hwr : i.wr = w.extractLsb' 0 32)
    (hseq : i.takesSeq = true → i.emittedSeq = w.extractLsb' 64 32) :
    w &&& 0xFFFFFFFF000000000000000000000000#128 = BitVec.ofNat 128 (op * 2 ^ 120) ↔
      decode (beBytes 16 w.toNat) = .ok i := by
  have hbyte : op < 256 := hop ▸ i.opcode_lt
  rw [and_mask_eq_iff w hbyte, ← hop, ← header_beBytes_iff, decode_eq_ok_iff]
  exact ⟨fun ⟨hop, hrsv⟩ => ⟨length_beBytes 16 _, hop, hrsv, (field32_beBytes w (by omega)).trans hrd.symm,
      (field32_beBytes w (by omega)).trans hwr.symm, fun h => (field32_beBytes w (by omega)).trans (hseq h).symm⟩,
    fun h => ⟨h.op, h.rsv⟩⟩

/-- Settles O4, row by row. -/
theorem decoderFollowsOpcodeTable : Obligations.DecoderFollowsOpcodeTable := by
  intro w
  exact ⟨match_iff_decode 1 rfl rfl rfl nofun, match_iff_decode 2 rfl rfl rfl nofun,
    match_iff_decode 3 rfl rfl rfl nofun, match_iff_decode 4 rfl rfl rfl fun _ => rfl,
    match_iff_decode 5 rfl rfl rfl fun _ => rfl⟩

/-- Settles O1: the decoder evaluated on the five byte strings. -/
theorem writtenDescriptorsDecode : Obligations.WrittenDescriptorsDecode :=
  ⟨by decide +kernel, by decide +kernel, by decide +kernel, by decide +kernel, by decide +kernel⟩

end Sys2Proof

/-! ## The sequencer and the decoded command (30_encoding.md R75, R85) -/

namespace Sys2Proof.Machine

/-- A command with a malformed window fails before its rule begins, mid-packet too (R85, R159). -/
theorem exec_of_malformed {i : Instr} {s : State} (h : i.wellFormed s.cap = false) :
    exec i s = .next (s.fail i.wr .illegalCommand) := by
  have hmid : replacesMidPacket i s = false := by simp [replacesMidPacket, h]
  cases i with
  | init rd wr => simp [exec, execInit, hmid, sequence_of_malformed h]
  | rekey rd wr => simp [exec, execRekey, hmid, sequence_of_malformed h]
  | decfb | decvf | enc => exact congrArg Host.Outcome.next (sequence_of_malformed h)

/-- Settles O7: the failure `IllegalCommand`, written out. -/
theorem malformedWindowIsIllegalCommand : Obligations.MalformedWindowIsIllegalCommand := by
  intro i s hwindow
  have hmalformed : i.wellFormed s.cap = false := by
    rw [Bool.eq_false_iff, ne_eq, wellFormed_iff]
    omega
  exact exec_of_malformed hmalformed

/-- Settles O8: the step takes the descriptor, and the port runs what it decodes to. -/
theorem stepRunsTheDecodedCommand : Obligations.StepRunsTheDecodedCommand := by
  intro s d rest i hin hdecode
  simp only [step, stepInput, hin, runInput, runDescriptor, hdecode]

end Sys2Proof.Machine

/-! ## INIT and REKEY (40_session.md R91 to R95) -/

namespace Sys2Proof.Machine

/-! ### The mid-packet test (R93) -/

/-- The mid-packet test holds exactly of a peeked, initialised engine and a well-formed window with a good key block. -/
theorem replacesMidPacket_iff {i : Instr} {s : State} :
    replacesMidPacket i s = true ↔ s.valid = true ∧ s.phase = .peeked ∧ i.rd.toNat ≤ i.wr.toNat ∧
      i.wr.toNat ≤ s.cap ∧ ∃ k : SessionKeys, s.Holds i.rd i.wr k.material := by
  have hkeys : (windowKeys i.rd i.wr s).toBool = true ↔ ∃ k : SessionKeys, s.Holds i.rd i.wr k.material := by
    simp only [← windowKeys_ok_iff]
    cases windowKeys i.rd i.wr s with
    | error f => simp [Except.toBool]
    | ok k => simp [Except.toBool]
  simp only [replacesMidPacket, Bool.and_eq_true, beq_iff_eq, wellFormed_iff, hkeys, and_assoc]

/-- A key command that would replace the keys mid-packet is refused. -/
theorem exec_of_replacesMidPacket {i : Instr} {s : State} (hkey : i = .init i.rd i.wr ∨ i = .rekey i.rd i.wr)
    (hmid : replacesMidPacket i s = true) : exec i s = .refused .keyReplacementMidPacket := by
  rcases hkey with hinit | hrekey
  · rw [hinit] at hmid ⊢
    exact if_pos hmid
  · rw [hrekey] at hmid ⊢
    exact if_pos hmid

/-- Every other command, and a key command that would not, completes. -/
theorem exec_completes {i : Instr} {s : State}
    (h : ¬ ((i = .init i.rd i.wr ∨ i = .rekey i.rd i.wr) ∧ replacesMidPacket i s = true)) :
    ∃ t, exec i s = .next t := by
  cases i with
  | init rd wr => exact ⟨_, if_neg fun hmid => h ⟨.inl rfl, hmid⟩⟩
  | rekey rd wr => exact ⟨_, if_neg fun hmid => h ⟨.inr rfl, hmid⟩⟩
  | decfb | decvf | enc => exact ⟨_, rfl⟩

/-- Settles O18: the hypotheses are the mid-packet test, the same for both commands. -/
theorem midPacketKeyReplacementIsRefused : Obligations.MidPacketKeyReplacementIsRefused := by
  intro rd wr s k hordered hinside hholds hvalid hphase
  have hmid : replacesMidPacket (.init rd wr) s = true :=
    replacesMidPacket_iff.mpr ⟨hvalid, hphase, hordered, hinside, k, hholds⟩
  exact ⟨exec_of_replacesMidPacket (.inl rfl) hmid, exec_of_replacesMidPacket (.inr rfl) hmid⟩

/-- Settles O32: a command either passes the mid-packet test of a key command and is refused, or completes. -/
theorem commandsStopOnlyMidPacket : Obligations.CommandsStopOnlyMidPacket := by
  intro i s
  simp only [← replacesMidPacket_iff]
  by_cases h : (i = .init i.rd i.wr ∨ i = .rekey i.rd i.wr) ∧ replacesMidPacket i s = true
  · obtain ⟨hkey, hmid⟩ := h
    rw [exec_of_replacesMidPacket hkey hmid]
    refine ⟨nofun, fun r => ⟨?_, fun ⟨hr, _⟩ => congrArg _ hr.symm⟩⟩
    rintro ⟨⟩
    exact ⟨rfl, hkey, hmid⟩
  · obtain ⟨t, ht⟩ := exec_completes h
    rw [ht]
    exact ⟨nofun, fun r => ⟨nofun, fun ⟨_, hr⟩ => absurd hr h⟩⟩

/-! ### A good key block -/

/-- Off a mid-packet session INIT loads the key block of its window. -/
theorem exec_init_of_holds {rd wr : BitVec 32} {s : State} {k : SessionKeys} (hordered : rd.toNat ≤ wr.toNat)
    (hinside : wr.toNat ≤ s.cap) (hholds : s.Holds rd wr k.material)
    (hboundary : ¬ (s.valid = true ∧ s.phase = .peeked)) :
    exec (.init rd wr) s = .next ((s.loadKeys k).succeed wr []) := by
  have hmid : replacesMidPacket (.init rd wr) s = false := replacesMidPacket_eq_false hboundary
  have hwindow : (Instr.init rd wr).wellFormed s.cap = true := (wellFormed_iff _ _).mpr ⟨hordered, hinside⟩
  have hkeys : windowKeys rd wr s = .ok k := windowKeys_ok_iff.mpr hholds
  simp [exec, execInit, hmid, sequence_of_wellFormed hwindow, initRule, hkeys, Completion.finish]

/-- Settles O13: loading the key block and succeeding, written out. -/
theorem initLoadsTheKeyBlock : Obligations.InitLoadsTheKeyBlock :=
  fun _ _ _ _ hordered hinside hholds hboundary => exec_init_of_holds hordered hinside hholds hboundary

/-! ### INIT on an initialised engine (R91) -/

/-- INIT writes `VALID` besides what REKEY writes; there it is set already. -/
theorem loadKeys_of_valid {s : State} (hvalid : s.valid = true) (k : SessionKeys) : s.loadKeys k = s.replaceKeys k := by
  rw [State.loadKeys, ← hvalid]
  rfl

theorem initRule_of_valid {s : State} (hvalid : s.valid = true) (rd wr : BitVec 32) :
    initRule rd wr s = rekeyRule rd wr s := by
  simp only [initRule, rekeyRule, hvalid, loadKeys_of_valid hvalid, Bool.true_eq_false, if_false]

/-- Settles O19: the sequencer and the mid-packet test treat the two commands alike, so it turns on their rules. -/
theorem initOnInitialisedEngineIsRekey : Obligations.InitOnInitialisedEngineIsRekey := by
  intro rd wr s hvalid
  simp only [exec, execInit, execRekey, State.sequence, initRule_of_valid hvalid]
  rfl

/-- Settles O14: on an initialised engine REKEY is INIT, which leaves `VALID` as it was. -/
theorem rekeyReplacesTheKeys : Obligations.RekeyReplacesTheKeys := by
  intro rd wr s k hordered hinside hholds hvalid hphase
  have hboundary : ¬ (s.valid = true ∧ s.phase = .peeked) := fun hpeeked => nomatch hphase.symm.trans hpeeked.2
  rw [← initOnInitialisedEngineIsRekey rd wr s hvalid, exec_init_of_holds hordered hinside hholds hboundary,
    loadKeys_of_valid hvalid]
  rfl

end Sys2Proof.Machine

/-! ## The datapath of an inbound frame (43_datapath.md R137 to R141) -/

namespace Sys2Proof.Machine

/-- Of `SEQ`, the declared length and the frame without its length field, the last two are the frame (R137). -/
theorem macMsgIn_declaredLength (seq : BitVec 32) {P : List Byte} (h : 4 ≤ P.length) :
    macMsgIn seq (BitVec.ofNat 32 (be (slice P 0 4))) P = be32 seq ++ P := by
  have hfield : be32 (BitVec.ofNat 32 (be (slice P 0 4))) = P.take 4 := be32_field32 P (i := 0) h
  rw [macMsgIn, hfield, List.append_assoc, List.take_append_drop]

theorem diffOr_eq_zero_iff {X T : List Byte} (h : X.length = T.length) : diffOr X T = 0#8 ↔ X = T := by
  induction X generalizing T with
  | nil => simp [diffOr, List.eq_nil_of_length_eq_zero h.symm]
  | cons x X ih =>
    cases T with
    | nil => exact nomatch h
    | cons t T => simp [diffOr, ih (Nat.succ.inj h)]

theorem tagEq_iff {X T : List Byte} : tagEq X T = true ↔ X = T := by
  by_cases hlen : X.length = T.length
  · simp [tagEq, hlen, diffOr_eq_zero_iff hlen]
  · simp [tagEq, hlen, ne_of_apply_ne List.length hlen]

@[simp] theorem tagEq_self (T : List Byte) : tagEq T T = true := tagEq_iff.mpr rfl

section
variable {P : List Byte} {padlen : Nat} (hpadlen : (P.getD 4 0#8).toNat = padlen)
include hpadlen

theorem stripPadding_of_lt (h : padlen < 4) : stripPadding P = .error .insufficientPadding := by
  subst hpadlen
  exact if_pos h

/-- The end of the content is an integer, below the content start where the padding reaches back past it (R142). -/
theorem stripPadding_of_excess (h : 4 ≤ padlen) (hlong : P.length < 5 + padlen) :
    stripPadding P = .error .excessPadding := by
  subst hpadlen
  exact (if_neg (by omega)).trans (if_pos (by omega))

theorem stripPadding_of_fits (h : 4 ≤ padlen) (hfits : 5 + padlen ≤ P.length) :
    stripPadding P = .ok (slice P 5 (P.length - padlen)) := by
  subst hpadlen
  have hend : ((P.length : Int) - ((P.getD 4 0#8).toNat : Int)).toNat = P.length - (P.getD 4 0#8).toNat := by omega
  rw [← hend]
  exact (if_neg (by omega)).trans (if_neg (by omega))

end

/-- A byte of a string that begins with bytes read from the buffer space. -/
theorem Memory.getD_readBytes_append (m : Memory) (off : Nat) {n j : Nat} (h : j < n) (rest : List Byte) (d : Byte) :
    (m.readBytes off n ++ rest).getD j d = m.read (off + j) := by
  have hj : j < (m.readBytes off n).length := by rwa [Memory.length_readBytes]
  rw [List.getD_append _ _ _ _ hj, List.getD_eq_getElem _ _ hj, Memory.getElem_readBytes]

end Sys2Proof.Machine

/-! ## DECFB and DECVF (41_decrypt.md R101 to R109) -/

namespace Sys2Proof.Machine

open Sys2Proof.Config (Primitives)

theorem exec_of_execUnder {p : Primitives} {i : Instr} {s t : State} (h : execUnder p i s = .next t)
    (hp : p = Config.primitives) : exec i s = .next t := by
  rw [execUsesTheEnginesPrimitives, ← hp, h]

/-! ### DECFB past its entry checks (R101) -/

/-- A byte of the first block is XORed with its byte of the keystream block. -/
theorem read_afterDecfb_inside (ks : Bytes 16) (rd : BitVec 32) {s : State} (hm : s.mem.wf = true) {j : Nat}
    (hj : j < 16) : (afterDecfb ks rd s).mem.read (rd.toNat + j) = s.mem.read (rd.toNat + j) ^^^ ks[j] := by
  have hblock : j < (xorBytes (s.mem.readBytes rd.toNat 16) ks.toList).length := by simpa [Memory.length_readBytes]
  calc (afterDecfb ks rd s).mem.read (rd.toNat + j)
      = (xorBytes (s.mem.readBytes rd.toNat 16) ks.toList)[j] := Memory.read_writeBytes_inside hm _ _ hblock
    _ = s.mem.read (rd.toNat + j) ^^^ ks[j] := by simp [xorBytes, Memory.getElem_readBytes]

/-- Past its entry checks DECFB decrypts the first block or fails as `E` fails. -/
theorem decfbUnder_past_entry (p : Primitives) {rd wr : BitVec 32} {s : State} (hordered : rd.toNat ≤ wr.toNat)
    (hinside : wr.toNat ≤ s.cap) (hvalid : s.valid = true) (hsize : 16 ≤ windowSize rd wr) :
    (∃ ks, p.E s.kei s.ctri = .ok ks ∧ decfbUnder p rd wr s = .next ((afterDecfb ks rd s).succeed wr [])) ∨
    (∃ info, p.E s.kei s.ctri = .fail info ∧ decfbUnder p rd wr s = .next (s.fail wr (.primitiveFailure info))) := by
  have hwindow : (Instr.decfb rd wr).wellFormed s.cap = true := (wellFormed_iff _ _).mpr ⟨hordered, hinside⟩
  rcases decfbUnder_cases p rd wr s with
    ⟨f, ⟨-, hmalformed⟩ | ⟨-, hinvalid⟩ | ⟨-, hsmall⟩ | ⟨info, hE, rfl⟩, hend⟩ | ⟨ks, hE, -, -, -, -, hend⟩
  · exact nomatch hwindow.symm.trans hmalformed
  · exact nomatch hvalid.symm.trans hinvalid
  · omega
  · exact .inr ⟨info, hE, hend⟩
  · exact .inl ⟨ks, hE, hend⟩

/-- Settles O20: past the entry checks the answer of `E` decides, and `afterDecfb` is the full effect. -/
theorem decfbDecryptsTheFirstBlock : Obligations.DecfbDecryptsTheFirstBlock := by
  intro p rd wr s hordered hinside hm hvalid hsize
  rcases decfbUnder_past_entry p hordered hinside hvalid hsize with ⟨ks, hE, hend⟩ | ⟨info, hE, hend⟩
  · refine ⟨_, hend, exec_of_execUnder hend, fun ks' hok => ?_, fun info hfail => nomatch hE.symm.trans hfail⟩
    cases hE.symm.trans hok
    exact ⟨rfl, fun j hj => read_afterDecfb_inside ks rd hm hj,
      fun a ha => read_afterDecfb_outside ks rd s (by omega)⟩
  · refine ⟨_, hend, exec_of_execUnder hend, fun ks hok => (nomatch hE.symm.trans hok), fun info' hfail => ?_⟩
    cases hE.symm.trans hfail
    rfl

/-! ### The verification of DECVF (R106, R107), over `SEQ` and the frame -/

section
variable {p : Primitives} {seq : BitVec 32} {P T X : List Byte} {s : State} (hframe : 4 ≤ P.length) (wr : BitVec 32)
include hframe

theorem decvfVerify_of_mac_fail {info : List Byte} (hmac : p.MAC s.kmi (be32 seq ++ P) = .fail info) :
    decvfVerify p wr seq P T s = .raised s (.primitiveFailure info) := by
  rw [← macMsgIn_declaredLength seq hframe] at hmac
  simp only [decvfVerify, hmac]

theorem decvfVerify_of_tag_ne (hmac : p.MAC s.kmi (be32 seq ++ P) = .ok X) (htag : X ≠ T) :
    decvfVerify p wr seq P T s = .raised s .tagMismatch := by
  rw [← macMsgIn_declaredLength seq hframe] at hmac
  have hdiffers : tagEq X T = false := Bool.eq_false_iff.mpr (mt tagEq_iff.mp htag)
  simp only [decvfVerify, hmac, hdiffers, if_true]

theorem decvfVerify_of_strip_error (hmac : p.MAC s.kmi (be32 seq ++ P) = .ok T) {f : Failure}
    (hstrip : stripPadding P = .error f) : decvfVerify p wr seq P T s = .raised s f := by
  rw [← macMsgIn_declaredLength seq hframe] at hmac
  simp [decvfVerify, hmac, hstrip]

theorem decvfVerify_of_strip_ok (hmac : p.MAC s.kmi (be32 seq ++ P) = .ok T) {payload : List Byte}
    (hstrip : stripPadding P = .ok payload) : decvfVerify p wr seq P T s = .done s wr payload := by
  rw [← macMsgIn_declaredLength seq hframe] at hmac
  simp [decvfVerify, hmac, hstrip]

/-- The codes of success and of the two padding failures are reached past the tag comparison only. -/
theorem mac_eq_of_passed_status
    (h : ((decvfVerify p wr seq P T s).finish wr).status = 0x00#8 ∨
      ((decvfVerify p wr seq P T s).finish wr).status = 0x04#8 ∨
      ((decvfVerify p wr seq P T s).finish wr).status = 0x05#8) : p.MAC s.kmi (be32 seq ++ P) = .ok T := by
  cases hmac : p.MAC s.kmi (be32 seq ++ P) with
  | fail info =>
    rw [decvfVerify_of_mac_fail hframe wr hmac] at h
    simp [Completion.finish, Failure.code] at h
  | ok X =>
    by_cases htag : X = T
    · rw [htag]
    · rw [decvfVerify_of_tag_ne hframe wr hmac htag] at h
      simp [Completion.finish, Failure.code] at h

end

/-! ### DECVF past its entry checks (R104, R108) -/

/-- Past its entry checks DECVF stops where the cipher fails, or ends as the verification ends. -/
theorem decvfUnder_past_entry (p : Primitives) {rd wr : BitVec 32} (seq : BitVec 32) {s : State}
    (hordered : rd.toNat ≤ wr.toNat) (hinside : wr.toNat ≤ s.cap) (hvalid : s.valid = true)
    (hsize : 48 ≤ windowSize rd wr) :
    (∃ info c, ctrCrypt (p.E s.kei) s.ctri (s.mem.readBytes (rd.toNat + 16) (windowSize rd wr - 48)) = .failed info c ∧
      decvfUnder p rd wr seq s = .next ((afterDecvf c s).fail wr (.primitiveFailure info))) ∨
    (∃ rest c, ctrCrypt (p.E s.kei) s.ctri (s.mem.readBytes (rd.toNat + 16) (windowSize rd wr - 48)) = .done rest c ∧
      decvfUnder p rd wr seq s = .next ((decvfVerify p wr seq (s.mem.readBytes rd.toNat 16 ++ rest)
        (s.mem.readBytes (rd.toNat + windowSize rd wr - 32) 32) (afterDecvf c s)).finish wr)) := by
  have hwindow : (Instr.decvf rd wr seq).wellFormed s.cap = true := (wellFormed_iff _ _).mpr ⟨hordered, hinside⟩
  rcases decvfUnder_cases p rd wr seq s with
    ⟨f, ⟨-, hmalformed⟩ | ⟨-, hinvalid⟩ | ⟨-, hsmall⟩, -⟩ | ⟨-, -, -, -, hend⟩
  · exact nomatch hwindow.symm.trans hmalformed
  · exact nomatch hvalid.symm.trans hinvalid
  · omega
  · exact hend

/-- Settles O21: the cipher decides whether the verification is reached; `MAC`, the tag comparison and the padding
stripper decide its end, over a frame of 16 bytes and the decrypted rest. -/
theorem decvfVerifiesAndStrips : Obligations.DecvfVerifiesAndStrips := by
  intro p rd wr seq s hordered hinside hvalid hsize N B0 C T padlen
  rcases decvfUnder_past_entry p seq hordered hinside hvalid hsize with ⟨info, c, hcrypt, hend⟩ | ⟨rest, c, hcrypt, hend⟩
  · refine ⟨_, hend, exec_of_execUnder hend, rfl, fun info' c' hfailed => ?_,
      fun rest c' hdone => nomatch hcrypt.symm.trans hdone⟩
    cases hcrypt.symm.trans hfailed
    exact ⟨rfl, rfl, rfl⟩
  · obtain ⟨hrest, hc⟩ := ctrCrypt_done hcrypt
    rw [Memory.length_readBytes] at hrest hc
    have hlen : (B0 ++ rest).length = N - 32 := by
      rw [List.length_append, Memory.length_readBytes]
      omega
    have hframe : 4 ≤ (B0 ++ rest).length := by omega
    have hpadlen : ((B0 ++ rest).getD 4 0#8).toNat = padlen :=
      congrArg BitVec.toNat (s.mem.getD_readBytes_append rd.toNat (by omega) rest _)
    obtain ⟨r, hpost⟩ := finish_decvfVerify_eq_post p wr seq (B0 ++ rest) T (afterDecvf c s)
    refine ⟨_, hend, exec_of_execUnder hend, ?_, fun info c' hfailed => (nomatch hcrypt.symm.trans hfailed),
      fun rest' c' hdone => ?_⟩
    · rw [hpost]
      rfl
    · cases hcrypt.symm.trans hdone
      refine ⟨?_, fun info hmac => ?_, fun X hmac => ⟨fun htag => ?_, ?_, ?_, ?_⟩⟩
      · rw [hpost]
        exact hc
      · rw [decvfVerify_of_mac_fail (s := afterDecvf c s) hframe wr hmac]
        exact ⟨rfl, rfl⟩
      · rw [decvfVerify_of_tag_ne (s := afterDecvf c s) hframe wr hmac htag]
        exact ⟨rfl, rfl⟩
      · rintro rfl hlow
        rw [decvfVerify_of_strip_error (s := afterDecvf c s) hframe wr hmac (stripPadding_of_lt hpadlen hlow)]
        exact ⟨rfl, rfl⟩
      · rintro rfl hhigh hlong
        rw [← hlen] at hlong
        rw [decvfVerify_of_strip_error (s := afterDecvf c s) hframe wr hmac
          (stripPadding_of_excess hpadlen hhigh hlong)]
        exact ⟨rfl, rfl⟩
      · rintro rfl hhigh hfits
        rw [← hlen] at hfits ⊢
        rw [decvfVerify_of_strip_ok (s := afterDecvf c s) hframe wr hmac
          (stripPadding_of_fits hpadlen hhigh hfits)]
        exact ⟨rfl, rfl⟩

/-! ### What DECVF lets out (R106, R107, R160) -/

/-- However a rule ends, a payload is handed back only with the code of success (R79). -/
theorem Completion.status_of_payload {c : Completion} {wr : BitVec 32} {r : Result}
    (hr : (c.finish wr).result = some r) (hpayload : r.payload ≠ []) : (c.finish wr).status = 0x00#8 := by
  cases c with
  | done s newwr payload => rfl
  | raised s f =>
    cases hr
    exact absurd rfl hpayload

/-- Settles O25: the entry checks and a failing cipher have other codes, and past them the verification has compared
the tag. -/
theorem onlyAuthenticFramesPassTheTag : Obligations.OnlyAuthenticFramesPassTheTag := by
  intro p rd wr seq s t hexec
  constructor
  · intro hstatus
    rcases decvfUnder_cases p rd wr seq s with
      ⟨f, hentry, hend⟩ | ⟨-, -, -, -, ⟨info, c, -, hend⟩ | ⟨rest, c, hcrypt, hend⟩⟩
    · cases hend.symm.trans hexec
      rcases hentry with ⟨rfl, -⟩ | ⟨rfl, -⟩ | ⟨rfl, -⟩
      all_goals simp [Failure.code] at hstatus
    · cases hend.symm.trans hexec
      simp [Failure.code] at hstatus
    · cases hend.symm.trans hexec
      have hframe : 4 ≤ (s.mem.readBytes rd.toNat 16 ++ rest).length := by
        rw [List.length_append, Memory.length_readBytes]
        omega
      exact ⟨rest, c, hcrypt, mac_eq_of_passed_status (s := afterDecvf c s) hframe wr hstatus⟩
  · intro r hr hpayload
    cases hexec
    exact Completion.status_of_payload hr hpayload

/-! ### `PHASE` is not tested (R109) -/

/-- A rule that does not test `PHASE`: from every phase it fails alike before its first write, or ends in one and the
same way. -/
def IgnoresPhase (rule : State → Completion) : Prop :=
  ∀ s : State, (∃ f, ∀ phase, rule { s with phase := phase } = .raised { s with phase := phase } f) ∨
    ∃ c, ∀ phase, rule { s with phase := phase } = c

theorem decfbRule_ignoresPhase (p : Primitives) (rd wr : BitVec 32) : IgnoresPhase (decfbRule p rd wr) := by
  intro s
  by_cases hinvalid : s.valid = false
  · exact .inl ⟨_, fun _ => if_pos hinvalid⟩
  · by_cases hsmall : windowSize rd wr < 16
    · exact .inl ⟨_, fun _ => (if_neg hinvalid).trans (if_pos hsmall)⟩
    · cases hE : p.E s.kei s.ctri with
      | fail info =>
        exact .inl ⟨.primitiveFailure info, fun _ => by simp only [decfbRule, if_neg hinvalid, if_neg hsmall, hE]⟩
      | ok ks =>
        exact .inr ⟨decfbRule p rd wr s, fun _ => by simp only [decfbRule, if_neg hinvalid, if_neg hsmall, hE]⟩

/-- Past its entry checks DECVF sets `PHASE` before it does anything else (R104). -/
theorem decvfRule_ignoresPhase (p : Primitives) (rd wr seq : BitVec 32) : IgnoresPhase (decvfRule p rd wr seq) := by
  intro s
  by_cases hinvalid : s.valid = false
  · exact .inl ⟨_, fun _ => if_pos hinvalid⟩
  · by_cases hsmall : windowSize rd wr < 48
    · exact .inl ⟨_, fun _ => (if_neg hinvalid).trans (if_pos hsmall)⟩
    · exact .inr ⟨decvfRule p rd wr seq s, fun _ => by simp only [decvfRule, if_neg hinvalid, if_neg hsmall]⟩

/-- Such a command gives next states that differ in `PHASE` at most, and there only where it failed. -/
theorem IgnoresPhase.sequence {rule : State → Completion} (h : IgnoresPhase rule) (i : Instr) (s : State)
    (phase : Phase) :
    s.sequence i rule =
      { ({ s with phase := phase } : State).sequence i rule with phase := (s.sequence i rule).phase } ∧
    ((s.sequence i rule).status = 0x00#8 →
      (({ s with phase := phase } : State).sequence i rule).phase = (s.sequence i rule).phase) := by
  by_cases hwindow : i.wellFormed s.cap = true
  · rw [sequence_of_wellFormed hwindow, sequence_of_wellFormed (s := { s with phase := phase }) hwindow]
    rcases h s with ⟨f, hfails⟩ | ⟨c, hends⟩
    · rw [hfails phase, hfails s.phase]
      exact ⟨rfl, fun hok => absurd hok f.code_ne_statusOk⟩
    · rw [hends phase, hends s.phase]
      exact ⟨rfl, fun _ => rfl⟩
  · rw [Bool.not_eq_true] at hwindow
    rw [sequence_of_malformed hwindow, sequence_of_malformed (s := { s with phase := phase }) hwindow]
    exact ⟨rfl, fun hok => absurd hok Failure.illegalCommand.code_ne_statusOk⟩

/-- Settles O38: neither inbound rule tests `PHASE`. -/
theorem inboundCommandsDoNotTestPhase : Obligations.InboundCommandsDoNotTestPhase := by
  intro p i s phase hi
  rcases hi with hdecfb | ⟨seq, hdecvf⟩
  · rw [hdecfb]
    exact ⟨_, _, rfl, rfl, (decfbRule_ignoresPhase p i.rd i.wr).sequence _ s phase⟩
  · rw [hdecvf]
    exact ⟨_, _, rfl, rfl, (decvfRule_ignoresPhase p i.rd i.wr seq).sequence _ s phase⟩

end Sys2Proof.Machine

/-! ## ENC (42_encrypt.md R121 to R124) -/

namespace Sys2Proof.Machine

open Sys2Proof.Config (Primitives)

/-! ### Where ENC stores: the ciphertext over the window, the tag after it (R121) -/

/-- A store leaves a range that ends before it as it was. -/
theorem Memory.readBytes_writeBytes_before (m : Memory) {off n a : Nat} (v : List Byte) (h : off + n ≤ a) :
    (m.writeBytes a v).readBytes off n = m.readBytes off n :=
  Memory.readBytes_congr fun _ _ hb => Memory.read_writeBytes_outside m (.inl (by omega))

section
variable {rd wr : BitVec 32} {s : State} {C T : List Byte} (c : Bytes 16) (hordered : rd.toNat ≤ wr.toNat)
  (hm : s.mem.wf = true) (hC : C.length = windowSize rd wr) (hT : T.length = 32)

include hordered hm hC in
/-- The tag is stored past the window, so the ciphertext is read back from it. -/
theorem readBytes_afterEnc_window : (afterEnc C T c rd wr s).mem.readBytes rd.toNat (windowSize rd wr) = C := by
  have hend : rd.toNat + windowSize rd wr ≤ wr.toNat := by
    unfold windowSize
    omega
  calc (afterEnc C T c rd wr s).mem.readBytes rd.toNat (windowSize rd wr)
      = (s.mem.writeBytes rd.toNat C).readBytes rd.toNat (windowSize rd wr) :=
        Memory.readBytes_writeBytes_before _ T hend
    _ = C := hC ▸ Memory.readBytes_writeBytes_same hm rd.toNat C

include hm hT in
theorem readBytes_afterEnc_tag : (afterEnc C T c rd wr s).mem.readBytes wr.toNat 32 = T :=
  (congrArg _ hT.symm).trans (Memory.readBytes_writeBytes_same (Memory.wf_writeBytes hm rd.toNat C) wr.toNat T)

include hordered hm hC hT in
/-- What the host reads after ENC: the ciphertext and the tag, wherever the window lies. -/
theorem readBytes_afterEnc :
    (afterEnc C T c rd wr s).mem.readBytes rd.toNat (windowSize rd wr + 32) = C ++ T := by
  have hend : rd.toNat + windowSize rd wr = wr.toNat := by
    unfold windowSize
    omega
  rw [Memory.readBytes_append, hend, readBytes_afterEnc_window c hordered hm hC, readBytes_afterEnc_tag c hm hT]

end

theorem toNat_newWr {wr : BitVec 32} (h : wr.toNat + 32 < 2 ^ 32) : (newWr wr).toNat = wr.toNat + 32 :=
  (congrArg BitVec.toNat (if_pos h)).trans (Nat.mod_eq_of_lt h)

/-! ### What ENC computes before its first write (R121, R122) -/

/-- Ciphertext, tag and next counter of a plaintext `P`, or the failure: a function of these inputs alone (R124). -/
def encAnswer (p : Primitives) (valid : Bool) (keo : Bytes 16) (kmo : Bytes 32) (ctro : Bytes 16) (seq : BitVec 32)
    (P : List Byte) : Except Failure (List Byte × List Byte × Bytes 16) :=
  if valid = false then .error .notInitialized
  else match p.MAC kmo (be32 seq ++ P) with
    | .fail info => .error (.primitiveFailure info)
    | .ok T =>
      if T.length ≠ 32 then .error .internalInvariant
      else match ctrCrypt (p.E keo) ctro P with
        | .failed info _ => .error (.primitiveFailure info)
        | .done C c => .ok (C, T, c)

section
variable {p : Primitives} {keo : Bytes 16} {kmo : Bytes 32} {ctro c : Bytes 16} {seq : BitVec 32}
  {P T C info : List Byte}

theorem encAnswer_of_uninitialised : encAnswer p false keo kmo ctro seq P = .error .notInitialized := if_pos rfl

theorem encAnswer_of_mac_fail (hmac : p.MAC kmo (be32 seq ++ P) = .fail info) :
    encAnswer p true keo kmo ctro seq P = .error (.primitiveFailure info) := by
  simp [encAnswer, hmac]

theorem encAnswer_of_tag_length (hmac : p.MAC kmo (be32 seq ++ P) = .ok T) (hT : T.length ≠ 32) :
    encAnswer p true keo kmo ctro seq P = .error .internalInvariant := by
  simp [encAnswer, hmac, hT]

theorem encAnswer_of_crypt_failed (hmac : p.MAC kmo (be32 seq ++ P) = .ok T) (hT : T.length = 32)
    (hcrypt : ctrCrypt (p.E keo) ctro P = .failed info c) :
    encAnswer p true keo kmo ctro seq P = .error (.primitiveFailure info) := by
  simp [encAnswer, hmac, hT, hcrypt]

theorem encAnswer_of_crypt_done (hmac : p.MAC kmo (be32 seq ++ P) = .ok T) (hT : T.length = 32)
    (hcrypt : ctrCrypt (p.E keo) ctro P = .done C c) :
    encAnswer p true keo kmo ctro seq P = .ok (C, T, c) := by
  simp [encAnswer, hmac, hT, hcrypt]

/-- An answer has as many bytes of ciphertext as the plaintext, a tag of 32 bytes, and the counter past the full
blocks. -/
theorem encAnswer_ok {valid : Bool} (h : encAnswer p valid keo kmo ctro seq P = .ok (C, T, c)) :
    C.length = P.length ∧ T.length = 32 ∧ c = ctrAdd ctro (P.length / 16) := by
  cases valid with
  | false => exact nomatch encAnswer_of_uninitialised.symm.trans h
  | true =>
    cases hmac : p.MAC kmo (be32 seq ++ P) with
    | fail info => exact nomatch (encAnswer_of_mac_fail hmac).symm.trans h
    | ok T' =>
      by_cases hT : T'.length = 32
      · cases hcrypt : ctrCrypt (p.E keo) ctro P with
        | failed info c' => exact nomatch (encAnswer_of_crypt_failed hmac hT hcrypt).symm.trans h
        | done C' c' =>
          cases (encAnswer_of_crypt_done hmac hT hcrypt).symm.trans h
          obtain ⟨hC, hc⟩ := ctrCrypt_done hcrypt
          exact ⟨hC, hT, hc⟩
      · exact nomatch (encAnswer_of_tag_length hmac hT).symm.trans h

end

/-- How ENC ends on an answer: it fails with the state unchanged (R122), or stores ciphertext, tag and counter. -/
def encEnd (rd wr : BitVec 32) (s : State) : Except Failure (List Byte × List Byte × Bytes 16) → Completion
  | .error f => .raised s f
  | .ok (C, T, c) => .done (afterEnc C T c rd wr s) (newWr wr) []

/-- Past its room check the rule of ENC computes its answer from `VALID`, `KEO`, `KMO`, `CTRO`, `SEQ` and the window's
bytes, and ends on it. -/
theorem encRule_with_room (p : Primitives) (rd : BitVec 32) {wr : BitVec 32} (seq : BitVec 32) {s : State}
    (hroom : wr.toNat + 32 ≤ s.cap) :
    encRule p rd wr seq s = encEnd rd wr s
      (encAnswer p s.valid s.keo s.kmo s.ctro seq (s.mem.readBytes rd.toNat (windowSize rd wr))) := by
  have hfits : ¬ s.cap < wr.toNat + 32 := Nat.not_lt.mpr hroom
  by_cases hvalid : s.valid = false
  · rw [hvalid, encAnswer_of_uninitialised]
    exact if_pos hvalid
  · simp only [encRule, encAnswer, macMsgOut, if_neg hvalid, if_neg hfits]
    cases p.MAC s.kmo (be32 seq ++ s.mem.readBytes rd.toNat (windowSize rd wr)) with
    | fail info => rfl
    | ok T =>
      by_cases hT : T.length ≠ 32
      · simp only [if_pos hT, encEnd]
      · simp only [if_neg hT]
        cases ctrCrypt (p.E s.keo) s.ctro (s.mem.readBytes rd.toNat (windowSize rd wr)) with
        | failed info c => rfl
        | done C c => rfl

theorem execUnder_enc_with_room (p : Primitives) {rd wr : BitVec 32} (seq : BitVec 32) {s : State}
    (hordered : rd.toNat ≤ wr.toNat) (hroom : wr.toNat + 32 ≤ s.cap) :
    execUnder p (.enc rd wr seq) s = .next ((encEnd rd wr s
      (encAnswer p s.valid s.keo s.kmo s.ctro seq (s.mem.readBytes rd.toNat (windowSize rd wr)))).finish wr) := by
  have hwindow : (Instr.enc rd wr seq).wellFormed s.cap = true :=
    (wellFormed_iff _ _).mpr ⟨hordered, Nat.le_of_add_right_le hroom⟩
  rw [← encRule_with_room p rd seq hroom]
  exact congrArg Host.Outcome.next (sequence_of_wellFormed hwindow)

/-! ### The statements on ENC -/

/-- Settles O22: each way `MAC`, the tag's length and the cipher can go fixes the answer, and ENC ends on it. -/
theorem encEncryptsAndAppendsTheTag : Obligations.EncEncryptsAndAppendsTheTag := by
  intro p rd wr seq s hordered hm hvalid hroom N P
  have hend := execUnder_enc_with_room p seq hordered hroom
  rw [hvalid] at hend
  refine ⟨_, hend, exec_of_execUnder hend, fun info hmac => ?_, fun T hmac =>
    ⟨fun hT => ?_, fun hT info c hcrypt => ?_, fun hT C c hcrypt => ?_⟩⟩
  · rw [encAnswer_of_mac_fail hmac]
    rfl
  · rw [encAnswer_of_tag_length hmac hT]
    rfl
  · rw [encAnswer_of_crypt_failed hmac hT hcrypt]
    rfl
  · have hanswer := encAnswer_of_crypt_done hmac hT hcrypt
    rw [hanswer] at hend ⊢
    obtain ⟨hC, -, hc⟩ := encAnswer_ok hanswer
    rw [Memory.length_readBytes] at hC hc
    exact ⟨⟨newWr wr, by rw [← hc]; rfl, toNat_newWr⟩, readBytes_afterEnc_window c hordered hm hC,
      readBytes_afterEnc_tag c hm hT,
      fun a ha => encUnder_read_outside hend (by omega)⟩

/-- Settles O23: of ENC's two effects the other one, `sent`, latches the code of success. -/
theorem failedEncChangesNothing : Obligations.FailedEncChangesNothing := by
  intro p rd wr seq s t hexec hstatus
  cases effect_of_execUnder hexec with
  | failed => exact ⟨rfl, rfl, rfl⟩
  | sent => exact absurd rfl hstatus

/-- Settles O24: both engines end on one answer, and what each stores of it is read back from its own window. -/
theorem encOutputIsAFunctionOfItsInputs : Obligations.EncOutputIsAFunctionOfItsInputs := by
  intro p rd wr rd' wr' seq s s' t hordered hordered' hroom hroom' hm hm' hvalid hkeo hkmo hctro hwindow hexec
  have hend := execUnder_enc_with_room p seq hordered hroom
  have hend' := execUnder_enc_with_room p seq hordered' hroom'
  rw [← hvalid, ← hkeo, ← hkmo, ← hctro, ← hwindow] at hend'
  refine ⟨_, hend', ?_⟩
  cases hend.symm.trans hexec
  cases hanswer : encAnswer p s.valid s.keo s.kmo s.ctro seq (s.mem.readBytes rd.toNat (windowSize rd wr)) with
  | error f => exact ⟨rfl, hctro.symm, fun hok => absurd hok f.code_ne_statusOk⟩
  | ok answer =>
    obtain ⟨C, T, c⟩ := answer
    obtain ⟨hC, hT, -⟩ := encAnswer_ok hanswer
    have hC' : C.length = windowSize rd' wr' := by rw [hC, hwindow, Memory.length_readBytes]
    rw [Memory.length_readBytes] at hC
    exact ⟨rfl, rfl, fun _ =>
      (readBytes_afterEnc c hordered hm hC hT).trans (readBytes_afterEnc c hordered' hm' hC' hT).symm⟩

end Sys2Proof.Machine

/-! ## The shared datapath (43_datapath.md) -/

namespace Sys2Proof

/-- Strings of one length and one value are the same string (00_scope.md R10). -/
theorem eq_of_be_eq {a b : List Byte} (hlen : a.length = b.length) (h : be a = be b) : a = b := by
  rw [← beBytes_be a, ← beBytes_be b, hlen, h]

theorem bytes_eq_of_be_eq {n : Nat} {a b : Bytes n} (h : be a.toList = be b.toList) : a = b :=
  Vector.toList_inj.mp (eq_of_be_eq (by simp) h)

theorem be_toList_lt {n : Nat} (c : Bytes n) : be c.toList < 256 ^ n := by
  simpa using be_lt c.toList

theorem be_concat (s : List Byte) (b : Byte) : be (s ++ [b]) = be s * 256 + b.toNat := by
  simp [be_append, be]

/-- A byte of a string XORed with a keystream block (00_scope.md R10). -/
theorem getElem?_xorBytes_block {data : List Byte} (ks : Bytes 16) {i : Nat} (h : i < data.length) (hi : i < 16) :
    (xorBytes data ks.toList)[i]? = some (data[i] ^^^ ks[i]) := by
  simp [xorBytes, h, hi]

end Sys2Proof

/-! ### The counter (R130 to R132) -/

namespace Sys2Proof.Machine

/-- The carry loop begins at the last byte: FF becomes 00 and carries, any other byte takes the one. -/
theorem ctrIncBytes_concat (s : List Byte) (b : Byte) :
    ctrIncBytes (s ++ [b]) = if b = 0xFF#8 then ctrIncBytes s ++ [0x00#8] else s ++ [b + 1#8] := by
  have hcarry : b + 1#8 = 0#8 ↔ b = 0xFF#8 := by bv_omega
  simp only [ctrIncBytes, List.reverse_append, List.reverse_singleton, List.singleton_append, incLastFirst, hcarry]
  split
  · simp
  · simp

theorem ctrIncBytes_concat_carry (s : List Byte) : ctrIncBytes (s ++ [0xFF#8]) = ctrIncBytes s ++ [0x00#8] :=
  (ctrIncBytes_concat s _).trans (if_pos rfl)

theorem ctrIncBytes_concat_stop (s : List Byte) {b : Byte} (hb : b ≠ 0xFF#8) :
    ctrIncBytes (s ++ [b]) = s ++ [b + 1#8] :=
  (ctrIncBytes_concat s b).trans (if_neg hb)

/-- Every FF at the end of the counter carries. -/
theorem ctrIncBytes_append_replicate (s : List Byte) (k : Nat) :
    ctrIncBytes (s ++ List.replicate k 0xFF#8) = ctrIncBytes s ++ List.replicate k 0x00#8 := by
  induction k with
  | zero => simp
  | succ k ih =>
    simp only [List.replicate_succ', ← List.append_assoc]
    rw [ctrIncBytes_concat_carry, ih]

/-- By the last byte: where it carries, both sides are the value of what is left of it times 256. -/
theorem be_ctrIncBytes (s : List Byte) : be (ctrIncBytes s) = (be s + 1) % 256 ^ s.length := by
  induction s using List.reverseRecOn with
  | nil => rfl
  | append_singleton s b ih =>
    rw [be_concat, List.length_append, List.length_singleton, pow_succ]
    by_cases hb : b = 0xFF#8
    · subst hb
      calc be (ctrIncBytes (s ++ [0xFF#8])) = (be s + 1) % 256 ^ s.length * 256 := by
            rw [ctrIncBytes_concat_carry, be_concat, ih, BitVec.toNat_zero, Nat.add_zero]
        _ = (be s * 256 + (0xFF#8 : Byte).toNat + 1) % (256 ^ s.length * 256) := by
            rw [← Nat.mul_mod_mul_right, Nat.add_one_mul, Nat.add_assoc _ (BitVec.toNat _)]
            norm_num
    · have hlt := be_lt s
      have hnext : (b + 1#8).toNat = b.toNat + 1 := by bv_omega
      rw [ctrIncBytes_concat_stop s hb, be_concat, hnext, Nat.mod_eq_of_lt (by omega), Nat.add_assoc]

theorem be_ctrInc {n : Nat} (c : Bytes n) : be (ctrInc c).toList = (be c.toList + 1) % 256 ^ n := by
  simpa using be_ctrIncBytes c.toList

theorem be_ctrAdd {n : Nat} (c : Bytes n) (k : Nat) : be (ctrAdd c k).toList = (be c.toList + k) % 256 ^ n := by
  induction k generalizing c with
  | zero => exact (Nat.mod_eq_of_lt (be_toList_lt c)).symm
  | succ k ih => rw [ctrAdd_succ, ih, be_ctrInc, Nat.mod_add_mod, Nat.add_right_comm, Nat.add_assoc]

/-- `256^n` increments go once round. -/
theorem ctrAdd_period {n : Nat} (c : Bytes n) : ctrAdd c (256 ^ n) = c := by
  apply bytes_eq_of_be_eq
  rw [be_ctrAdd, Nat.add_mod_right, Nat.mod_eq_of_lt (be_toList_lt c)]

/-- The inverse of one increment is one increment less than a whole round. -/
theorem ctrInc_bijective (n : Nat) : Function.Bijective (ctrInc : Bytes n → Bytes n) := by
  have hround : 256 ^ n - 1 + 1 = 256 ^ n := Nat.sub_add_cancel (Nat.one_le_pow _ _ (by decide))
  refine Function.bijective_iff_has_inverse.mpr ⟨fun c => ctrAdd c (256 ^ n - 1), fun c => ?_, fun c => ?_⟩
  · calc ctrAdd (ctrInc c) (256 ^ n - 1) = ctrAdd c (256 ^ n - 1 + 1) := rfl
      _ = c := by rw [hround, ctrAdd_period]
  · calc ctrInc (ctrAdd c (256 ^ n - 1)) = ctrAdd c (256 ^ n - 1 + 1) := (ctrAdd_add c _ 1).symm
      _ = c := by rw [hround, ctrAdd_period]

/-- Settles O45: the value by the last byte, the order from the value, the inverse from the order. -/
theorem counterIncrementAddsOne : Obligations.CounterIncrementAddsOne := by
  refine ⟨fun c => ⟨length_ctrIncBytes c, ?_⟩, fun left b k hb => ?_, fun n => ?_, ctrInc_bijective,
    fun c k hk => ?_⟩
  · rw [be_ctrIncBytes, pow_mul]
    rfl
  · rw [List.append_cons, ctrIncBytes_append_replicate, ctrIncBytes_concat_stop left hb, ← List.append_cons]
  · exact ctrIncBytes_append_replicate [] n
  · have hround : k = 256 ^ 16 := hk
    rw [hround, ctrAdd_period]

theorem ctrAdd_eq_iterate {n : Nat} (c : Bytes n) (k : Nat) : ctrAdd c k = ctrInc^[k] c := by
  induction k generalizing c with
  | zero => rfl
  | succ k ih => rw [ctrAdd_succ, ih, Function.iterate_succ_apply]

/-- Settles O46: a byte string of fixed length is the string of its value. -/
theorem counterAddIsAdditionModulo : Obligations.CounterAddIsAdditionModulo := by
  refine fun c k => ⟨ctrAdd_eq_iterate c k, bytes_eq_of_be_eq ?_⟩
  have hmod : (2 : Nat) ^ 128 = 256 ^ 16 := rfl
  rw [be_ctrAdd, hmod, toList_beVec, be_beBytes, Nat.mod_mod]

/-! ### The keystream scheduler (R133, R134) -/

open Sys2Proof.Config (PrimResult)

/-- Byte `i` of a region, `x`, comes out as `o`: XORed with byte `i mod 16` of `E` at the counter `i div 16` places on
(R133). -/
def CryptsTo (E : Bytes 16 → PrimResult (Bytes 16)) (c : Bytes 16) (i : Nat) (x : Byte) (o : Option Byte) : Prop :=
  ∃ ks, E (ctrAdd c (i / 16)) = .ok ks ∧ o = some (x ^^^ ks[i % 16]'(Nat.mod_lt _ (by decide)))

section
variable {E : Bytes 16 → PrimResult (Bytes 16)} {c c' : Bytes 16} {data out info : List Byte}

theorem CryptsTo.of_first_block {ks : Bytes 16} (hE : E c = .ok ks) {i : Nat} (hi : i < 16) (x : Byte) :
    CryptsTo E c i x (some (x ^^^ ks[i])) := by
  refine ⟨ks, by rwa [Nat.div_eq_of_lt hi], ?_⟩
  simp only [Nat.mod_eq_of_lt hi]

theorem CryptsTo.of_next_block {k : Nat} {x : Byte} {o : Option Byte} (h : CryptsTo E (ctrInc c) k x o) :
    CryptsTo E c (16 + k) x o := by
  obtain ⟨ks, hE, ho⟩ := h
  have hplace : (16 + k) / 16 = k / 16 + 1 := by omega
  refine ⟨ks, by rwa [hplace], ?_⟩
  simpa only [Nat.add_mod_left] using ho

/-- A place of the region determines what a byte there comes out as. -/
theorem CryptsTo.unique {i : Nat} {x : Byte} {o o' : Option Byte} (h : CryptsTo E c i x o) (h' : CryptsTo E c i x o') :
    o = o' := by
  obtain ⟨ks, hE, rfl⟩ := h
  obtain ⟨ks', hE', rfl⟩ := h'
  cases hE.symm.trans hE'
  rfl

/-- XOR with one byte twice is no change (R133). -/
theorem CryptsTo.symm {i : Nat} {x y : Byte} (h : CryptsTo E c i x (some y)) : CryptsTo E c i y (some x) := by
  obtain ⟨ks, hE, hy⟩ := h
  cases hy
  exact ⟨ks, hE, by rw [BitVec.xor_assoc, BitVec.xor_self, BitVec.xor_zero]⟩

/-- The byte that begins block `j` is there only if the block's keystream is. -/
theorem CryptsTo.answers {j : Nat} {x : Byte} {o : Option Byte} (h : CryptsTo E c (16 * j) x o) :
    ∃ ks, E (ctrAdd c j) = .ok ks := by
  obtain ⟨ks, hE, -⟩ := h
  exact ⟨ks, by rwa [Nat.mul_div_cancel_left j (by decide)] at hE⟩

theorem ctrCryptBlocks_done_cryptsTo {nb : Nat} (hlo : 16 * nb ≤ data.length) (hhi : data.length < 16 * nb + 16)
    (h : ctrCryptBlocks E nb c data = .done out c') (i : Nat) (hi : i < data.length) :
    CryptsTo E c i data[i] out[i]? := by
  induction nb generalizing c data out i with
  | zero =>
    rcases (ctrCryptBlocks_zero E c data _).mp h with ⟨rfl, -⟩ | ⟨-, info, -, hr⟩ | ⟨-, ks, hE, hr⟩
    · exact absurd hi (Nat.not_lt_zero i)
    · cases hr
    · cases hr
      have h16 : i < 16 := by omega
      rw [getElem?_xorBytes_block ks hi h16]
      exact .of_first_block hE h16 _
  | succ nb ih =>
    rcases (ctrCryptBlocks_succ E nb c data _).mp h with
      ⟨info, -, hr⟩ | ⟨ks, hE, ⟨info, c'', -, hr⟩ | ⟨rest, c'', hrest, hr⟩⟩
    · cases hr
    · cases hr
    · cases hr
      have hblock : (xorBytes (data.take 16) ks.toList).length = 16 := by
        simp only [length_xorBytes, List.length_take, Vector.length_toList]
        omega
      by_cases h16 : i < 16
      · have htake : i < (data.take 16).length := by simp only [List.length_take]; omega
        rw [List.getElem?_append_left (by omega), getElem?_xorBytes_block ks htake h16, List.getElem_take]
        exact .of_first_block hE h16 _
      · obtain ⟨k, rfl⟩ := Nat.exists_eq_add_of_le (Nat.not_lt.mp h16)
        have hrec := ih (by simp only [List.length_drop]; omega) (by simp only [List.length_drop]; omega) hrest k
          (by simp only [List.length_drop]; omega)
        rw [List.getElem_drop] at hrec
        rw [List.getElem?_append_right (by omega), hblock, Nat.add_sub_cancel_left]
        exact hrec.of_next_block

theorem ctrCrypt_done_cryptsTo (h : ctrCrypt E c data = .done out c') (i : Nat) (hi : i < data.length) :
    CryptsTo E c i data[i] out[i]? :=
  ctrCryptBlocks_done_cryptsTo (by omega) (by omega) h i hi

/-- Block `j` is the first whose keystream `E` does not give. -/
structure FirstFailure (E : Bytes 16 → PrimResult (Bytes 16)) (c : Bytes 16) (info : List Byte) (j : Nat) : Prop where
  fails : E (ctrAdd c j) = .fail info
  before : ∀ j', j' < j → ∃ ks, E (ctrAdd c j') = .ok ks

theorem FirstFailure.here (hE : E c = .fail info) : FirstFailure E c info 0 :=
  ⟨hE, fun _ h => absurd h (Nat.not_lt_zero _)⟩

theorem FirstFailure.of_next_block {ks : Bytes 16} (hE : E c = .ok ks) {j : Nat}
    (h : FirstFailure E (ctrInc c) info j) : FirstFailure E c info (j + 1) where
  fails := h.fails
  before
    | 0, _ => ⟨ks, hE⟩
    | j' + 1, hj => h.before j' (Nat.lt_of_succ_lt_succ hj)

theorem FirstFailure.not_answers {j : Nat} (h : FirstFailure E c info j) : ¬ ∃ ks, E (ctrAdd c j) = .ok ks :=
  fun ⟨_, hE⟩ => nomatch h.fails.symm.trans hE

theorem FirstFailure.unique {info' : List Byte} {j j' : Nat} (h : FirstFailure E c info j)
    (h' : FirstFailure E c info' j') : j = j' ∧ info = info' := by
  have hj : j = j' := Nat.le_antisymm (Nat.not_lt.mp fun hlt => h'.not_answers (h.before j' hlt))
    (Nat.not_lt.mp fun hlt => h.not_answers (h'.before j hlt))
  subst hj
  cases h.fails.symm.trans h'.fails
  exact ⟨rfl, rfl⟩

theorem ctrCryptBlocks_failed_first {nb : Nat} (hlo : 16 * nb ≤ data.length)
    (h : ctrCryptBlocks E nb c data = .failed info c') :
    ∃ j, 16 * j < data.length ∧ c' = ctrAdd c j ∧ FirstFailure E c info j := by
  induction nb generalizing c data with
  | zero =>
    rcases (ctrCryptBlocks_zero E c data _).mp h with ⟨-, hr⟩ | ⟨hdata, _, hE, hr⟩ | ⟨-, _, -, hr⟩
    · cases hr
    · cases hr
      exact ⟨0, List.length_pos_of_ne_nil hdata, rfl, .here hE⟩
    · cases hr
  | succ nb ih =>
    rcases (ctrCryptBlocks_succ E nb c data _).mp h with
      ⟨_, hE, hr⟩ | ⟨ks, hE, ⟨_, _, hrest, hr⟩ | ⟨_, _, -, hr⟩⟩
    · cases hr
      exact ⟨0, by omega, rfl, .here hE⟩
    · cases hr
      obtain ⟨j, hj, hc, hfirst⟩ := ih (by simp only [List.length_drop]; omega) hrest
      rw [List.length_drop] at hj
      exact ⟨j + 1, by omega, hc, hfirst.of_next_block hE⟩
    · cases hr

theorem ctrCrypt_failed_first (h : ctrCrypt E c data = .failed info c') :
    ∃ j, 16 * j < data.length ∧ c' = ctrAdd c j ∧ FirstFailure E c info j :=
  ctrCryptBlocks_failed_first (by omega) h

/-- The bytes determine that `ctr_crypt` is done, and with what: a failing call would be that of a byte's block, and
two outputs agree byte by byte. -/
theorem ctrCrypt_done_of_cryptsTo (hlen : out.length = data.length)
    (hbytes : ∀ (i : Nat) (hi : i < data.length), CryptsTo E c i data[i] out[i]?) :
    ctrCrypt E c data = .done out (ctrAdd c (data.length / 16)) := by
  cases hcrypt : ctrCrypt E c data with
  | failed info c₁ =>
    obtain ⟨j, hj, -, hfirst⟩ := ctrCrypt_failed_first hcrypt
    exact absurd (hbytes _ hj).answers hfirst.not_answers
  | done out₁ c₁ =>
    obtain ⟨hlen₁, rfl⟩ := ctrCrypt_done hcrypt
    have hout : out₁ = out := by
      refine List.ext_getElem? fun i => ?_
      by_cases hi : i < data.length
      · exact (ctrCrypt_done_cryptsTo hcrypt i hi).unique (hbytes i hi)
      · rw [List.getElem?_eq_none (by omega), List.getElem?_eq_none (by omega)]
    rw [hout]

/-- The first failing call determines how `ctr_crypt` fails: were it done, the block would have its keystream. -/
theorem ctrCrypt_failed_of_first {j : Nat} (hj : 16 * j < data.length) (hfirst : FirstFailure E c info j) :
    ctrCrypt E c data = .failed info (ctrAdd c j) := by
  cases hcrypt : ctrCrypt E c data with
  | done out c₁ => exact absurd (ctrCrypt_done_cryptsTo hcrypt _ hj).answers hfirst.not_answers
  | failed info₁ c₁ =>
    obtain ⟨j₁, -, rfl, hfirst₁⟩ := ctrCrypt_failed_first hcrypt
    obtain ⟨rfl, rfl⟩ := hfirst.unique hfirst₁
    rfl

/-- A region of a block and more that is done: its first block, and the rest done from the next counter on. -/
theorem ctrCrypt_done_first_block (hlen : 16 ≤ data.length) (h : ctrCrypt E c data = .done out c') :
    ∃ ks rest, E c = .ok ks ∧ ctrCrypt E (ctrInc c) (data.drop 16) = .done rest c' ∧
      out = xorBytes (data.take 16) ks.toList ++ rest := by
  have hblocks : data.length / 16 = (data.drop 16).length / 16 + 1 := by
    rw [List.length_drop]
    omega
  rw [ctrCrypt, hblocks] at h
  rcases (ctrCryptBlocks_succ E _ c data _).mp h with
    ⟨_, -, hr⟩ | ⟨ks, hE, ⟨_, _, -, hr⟩ | ⟨rest, _, hrest, hr⟩⟩
  · cases hr
  · cases hr
  · cases hr
    exact ⟨ks, rest, hE, hrest, rfl⟩

end

/-- Settles O47: what the loop gives says where it stands byte by byte, and that determines what it gives. -/
theorem keystreamIsPositional : Obligations.KeystreamIsPositional := by
  refine fun E c data => ⟨fun out c' => ⟨fun h => ?_, ?_⟩, fun info c' => ⟨fun h => ?_, ?_⟩⟩
  · obtain ⟨hlen, hc⟩ := ctrCrypt_done h
    exact ⟨hlen, hc, ctrCrypt_done_cryptsTo h⟩
  · rintro ⟨hlen, rfl, hbytes⟩
    exact ctrCrypt_done_of_cryptsTo hlen hbytes
  · obtain ⟨j, hj, rfl, hfirst⟩ := ctrCrypt_failed_first h
    exact ⟨j, hj, rfl, hfirst.fails, hfirst.before⟩
  · rintro ⟨j, hj, rfl, hfails, hbefore⟩
    exact ctrCrypt_failed_of_first hj ⟨hfails, hbefore⟩

/-- Settles O48: place by place the same keystream byte is XORed twice. -/
theorem ctrCryptIsItsOwnInverse : Obligations.CtrCryptIsItsOwnInverse := by
  intro E c c' data out h
  obtain ⟨hlen, rfl⟩ := ctrCrypt_done h
  rw [← hlen]
  refine ctrCrypt_done_of_cryptsTo hlen.symm fun i hi => ?_
  have hdata : i < data.length := hlen ▸ hi
  have hplace := ctrCrypt_done_cryptsTo h i hdata
  rw [List.getElem?_eq_getElem hi] at hplace
  rw [List.getElem?_eq_getElem hdata]
  exact hplace.symm

/-! ### MAC messages, tag comparator and padding stripper (R136 to R141) -/

/-- Settles O49: four bytes are the big-endian field of their own value, so the length is hashed as it stands. -/
theorem macMessagesAgree : Obligations.MacMessagesAgree := fun seq P h =>
  ⟨be32_field32 P (i := 0) (by omega), macMsgIn_declaredLength seq h, rfl⟩

/-- Settles O50: of two strings of one length the OR of the differences is zero only where there is none. -/
theorem tagComparatorIsEquality : Obligations.TagComparatorIsEquality := fun _ _ => tagEq_iff

/-- The stripper looks at the length, the padding-length byte and the content: what stands past the content's end is
free (R141). -/
theorem stripPadding_congr {P Q : List Byte} {n : Nat} (hlen : Q.length = P.length) (hcommon : Q.take n = P.take n)
    (hlow : 4 ≤ (P.getD 4 0#8).toNat) (hfits : 5 + (P.getD 4 0#8).toNat ≤ P.length)
    (hn : P.length - (P.getD 4 0#8).toNat = n) : stripPadding Q = stripPadding P := by
  have hbyte : Q.getD 4 0#8 = P.getD 4 0#8 := by
    have h4 : 4 < n := by omega
    rw [List.getD_eq_getElem?_getD, List.getD_eq_getElem?_getD, ← List.getElem?_take_of_lt h4, hcommon,
      List.getElem?_take_of_lt h4]
  have hcontent : slice Q 5 n = slice P 5 n := slice_congr (i := 0) hcommon (by omega) le_rfl
  rw [stripPadding_of_fits rfl hlow hfits, stripPadding_of_fits (congrArg _ hbyte) hlow (by omega), hlen, hn, hcontent]

/-- Settles O51: the two tests in the order of R141, and the bytes that are not looked at. -/
theorem paddingIsStripped : Obligations.PaddingIsStripped := by
  intro P hP padlen
  refine ⟨stripPadding_of_lt rfl, stripPadding_of_excess rfl, fun hlow hfits =>
    ⟨stripPadding_of_fits rfl hlow hfits, fun padding hpadding => ?_⟩⟩
  have hcontent : (P.take (P.length - padlen)).length = P.length - padlen := by
    rw [List.length_take]
    omega
  refine stripPadding_congr ?_ (List.take_left' hcontent) hlow hfits rfl
  rw [List.length_append, hcontent, hpadding]
  omega

end Sys2Proof.Machine

/-! ### A frame through DECFB and DECVF (R135, R143) -/

namespace Sys2Proof.Machine

open Sys2Proof.Config (Primitives)

/-- DECVF that ends past its cipher has advanced `CTRI` by the full blocks past the first (R108). -/
theorem ctri_of_decvf_past_cipher {p : Primitives} {rd wr seq : BitVec 32} {s t : State}
    (h : execUnder p (.decvf rd wr seq) s = .next t)
    (hstatus : t.status = 0x00#8 ∨ t.status = 0x03#8 ∨ t.status = 0x04#8 ∨ t.status = 0x05#8) :
    48 ≤ windowSize rd wr ∧ t.ctri = ctrAdd s.ctri ((windowSize rd wr - 48) / 16) := by
  rcases decvfUnder_cases p rd wr seq s with
    ⟨f, hentry, hend⟩ | ⟨-, hsize, -, -, ⟨info, c, -, hend⟩ | ⟨rest, c, hcrypt, hend⟩⟩
  · cases hend.symm.trans h
    rcases hentry with ⟨rfl, -⟩ | ⟨rfl, -⟩ | ⟨rfl, -⟩
    all_goals simp [Failure.code] at hstatus
  · cases hend.symm.trans h
    simp [Failure.code] at hstatus
  · obtain ⟨r, hpost⟩ := finish_decvfVerify_eq_post p wr seq (s.mem.readBytes rd.toNat 16 ++ rest)
      (s.mem.readBytes (rd.toNat + windowSize rd wr - 32) 32) (afterDecvf c s)
    obtain ⟨-, hc⟩ := ctrCrypt_done hcrypt
    rw [Memory.length_readBytes] at hc
    cases hend.symm.trans h
    rw [hpost]
    exact ⟨hsize, hc⟩

theorem ctri_of_decfb_ok {p : Primitives} {rd wr : BitVec 32} {s t : State}
    (h : execUnder p (.decfb rd wr) s = .next t) (hstatus : t.status = 0x00#8) : t.ctri = ctrInc s.ctri := by
  cases effect_of_execUnder h with
  | failed _ f => exact absurd hstatus f.code_ne_statusOk
  | peeked => rfl

/-- Settles O26: one increment by DECFB, then one for each further block. -/
theorem inboundFrameAdvancesTheCounterByItsBlocks : Obligations.InboundFrameAdvancesTheCounterByItsBlocks := by
  intro p rd wr wr' seq s t u hdecfb hok hdecvf hstatus
  obtain ⟨hsize, hctri⟩ := ctri_of_decvf_past_cipher hdecvf hstatus
  have hblocks : (windowSize rd wr - 32) / 16 = (windowSize rd wr - 48) / 16 + 1 := by omega
  rw [hctri, ctri_of_decfb_ok hdecfb hok, hblocks, ctrAdd_succ]

/-- What a successful ENC computed (R121): the tag, the ciphertext and the counter, of which the host reads the first
two from the window's start on. -/
theorem enc_ok_output {p : Primitives} {rd wr seq : BitVec 32} {s t : State} (hm : s.mem.wf = true)
    (h : execUnder p (.enc rd wr seq) s = .next t) (hstatus : t.status = 0x00#8) :
    ∃ T C, p.MAC s.kmo (be32 seq ++ s.mem.readBytes rd.toNat (windowSize rd wr)) = .ok T ∧ T.length = 32 ∧
      ctrCrypt (p.E s.keo) s.ctro (s.mem.readBytes rd.toNat (windowSize rd wr)) = .done C t.ctro ∧
      t.mem.readBytes rd.toNat (windowSize rd wr + 32) = C ++ T ∧ t.keo = s.keo ∧ t.kmo = s.kmo := by
  rcases encUnder_cases p rd wr seq s with ⟨f, -, hend⟩ | ⟨T, C, c, hmac, hT, hcrypt, -, hordered, -, hend⟩
  · cases hend.symm.trans h
    exact absurd hstatus f.code_ne_statusOk
  · have hC := (ctrCrypt_done hcrypt).1
    rw [Memory.length_readBytes] at hC
    cases hend.symm.trans h
    exact ⟨T, C, hmac, hT, hcrypt, readBytes_afterEnc c hordered hm hC hT, rfl, rfl⟩

section
variable (ks : Bytes 16) (rd : BitVec 32) (s : State)

theorem readBytes_afterDecfb_first (hm : s.mem.wf = true) :
    (afterDecfb ks rd s).mem.readBytes rd.toNat 16 = xorBytes (s.mem.readBytes rd.toNat 16) ks.toList := by
  have hblock : (xorBytes (s.mem.readBytes rd.toNat 16) ks.toList).length = 16 := by simp [Memory.length_readBytes]
  exact (congrArg _ hblock.symm).trans (Memory.readBytes_writeBytes_same hm rd.toNat _)

theorem readBytes_afterDecfb_past {off : Nat} (n : Nat) (hoff : rd.toNat + 16 ≤ off) :
    (afterDecfb ks rd s).mem.readBytes off n = s.mem.readBytes off n :=
  Memory.readBytes_congr fun _ _ _ => read_afterDecfb_outside ks rd s (by omega)

end

/-- DECFB past its entry checks, where `E` answers. -/
theorem decfb_of_keystream {p : Primitives} {rd wr : BitVec 32} {s : State} {ks : Bytes 16} (hvalid : s.valid = true)
    (hsize : rd.toNat + 16 ≤ wr.toNat) (hinside : wr.toNat ≤ s.cap) (hE : p.E s.kei s.ctri = .ok ks) :
    execUnder p (.decfb rd wr) s = .next ((afterDecfb ks rd s).succeed wr []) := by
  have hblock : 16 ≤ windowSize rd wr := by
    unfold windowSize
    omega
  rcases decfbUnder_past_entry p (rd := rd) (by omega) hinside hvalid hblock with ⟨ks', hE', hend⟩ | ⟨info, hE', -⟩
  · cases hE.symm.trans hE'
    exact hend
  · exact nomatch hE.symm.trans hE'

/-- DECVF past its entry checks, where the cipher is done, the tag over the frame is the window's, and the padding is
in order. -/
theorem decvf_of_frame {p : Primitives} {rd wr seq : BitVec 32} {s : State} {rest payload : List Byte} {c : Bytes 16}
    (hvalid : s.valid = true) (hordered : rd.toNat ≤ wr.toNat) (hinside : wr.toNat ≤ s.cap)
    (hsize : 48 ≤ windowSize rd wr)
    (hcrypt : ctrCrypt (p.E s.kei) s.ctri (s.mem.readBytes (rd.toNat + 16) (windowSize rd wr - 48)) = .done rest c)
    (hmac : p.MAC s.kmi (be32 seq ++ (s.mem.readBytes rd.toNat 16 ++ rest)) =
      .ok (s.mem.readBytes (rd.toNat + windowSize rd wr - 32) 32))
    (hstrip : stripPadding (s.mem.readBytes rd.toNat 16 ++ rest) = .ok payload) :
    execUnder p (.decvf rd wr seq) s = .next ((afterDecvf c s).succeed wr payload) := by
  have hframe : 4 ≤ (s.mem.readBytes rd.toNat 16 ++ rest).length := by
    rw [List.length_append, Memory.length_readBytes]
    omega
  rcases decvfUnder_past_entry p seq hordered hinside hvalid hsize with
    ⟨info, c', hfailed, -⟩ | ⟨rest', c', hdone, hend⟩
  · exact nomatch hcrypt.symm.trans hfailed
  · cases hcrypt.symm.trans hdone
    rw [decvfVerify_of_strip_ok (s := afterDecvf c s) hframe wr hmac hstrip] at hend
    exact hend

/-- The three ranges in which the inbound commands read a ciphertext with its tag. -/
theorem readBytes_block_rest_tag {m : Memory} {off n : Nat} {C T : List Byte} (hsize : 16 ≤ C.length)
    (h : m.readBytes off n = C ++ T) :
    m.readBytes off 16 = C.take 16 ∧ m.readBytes (off + 16) (C.length - 16) = C.drop 16 ∧
      m.readBytes (off + C.length) T.length = T := by
  obtain ⟨hC, hT⟩ := readBytes_eq_append h
  obtain ⟨hblock, hrest⟩ := readBytes_eq_append (hC.trans (List.take_append_drop 16 C).symm)
  rw [List.length_take_of_le hsize] at hblock hrest
  rw [List.length_drop] at hrest
  exact ⟨hblock, hrest, hT⟩

/-- The receiver's side of R143: a ciphertext of a whole block or more that `ctr_crypt` turns into the frame `P`, with
the tag over `P` behind it, is decrypted, verified and stripped. -/
theorem received_frame {p : Primitives} {rd wr wr1 seq : BitVec 32} {s : State} {P C T payload : List Byte}
    {c : Bytes 16} (hm : s.mem.wf = true) (hvalid : s.valid = true) (hsize : 16 ≤ C.length) (hT : T.length = 32)
    (hwr : wr.toNat = rd.toNat + C.length + 32) (hinside : wr.toNat ≤ s.cap)
    (hwr1 : rd.toNat + 16 ≤ wr1.toNat) (hinside1 : wr1.toNat ≤ s.cap)
    (hbuffer : s.mem.readBytes rd.toNat (C.length + 32) = C ++ T)
    (hcrypt : ctrCrypt (p.E s.kei) s.ctri C = .done P c) (hmac : p.MAC s.kmi (be32 seq ++ P) = .ok T)
    (hstrip : stripPadding P = .ok payload) :
    ∃ ks, execUnder p (.decfb rd wr1) s = .next ((afterDecfb ks rd s).succeed wr1 []) ∧
      execUnder p (.decvf rd wr seq) ((afterDecfb ks rd s).succeed wr1 []) =
        .next ((afterDecvf c ((afterDecfb ks rd s).succeed wr1 [])).succeed wr payload) := by
  obtain ⟨ks, rest, hE, hrest, rfl⟩ := ctrCrypt_done_first_block hsize hcrypt
  obtain ⟨hblock, hpast, htag⟩ := readBytes_block_rest_tag hsize hbuffer
  rw [hT] at htag
  have hN : windowSize rd wr = C.length + 32 := by
    unfold windowSize
    omega
  have hpastSize : windowSize rd wr - 48 = C.length - 16 := by omega
  have htagOffset : rd.toNat + windowSize rd wr - 32 = rd.toNat + C.length := by omega
  refine ⟨ks, decfb_of_keystream hvalid hwr1 hinside1 hE,
    decvf_of_frame (rest := rest) hvalid (by omega) hinside (by omega) ?_ ?_ ?_⟩
  · rw [succeed_mem, readBytes_afterDecfb_past ks rd s _ le_rfl, hpastSize, hpast]
    exact hrest
  · rw [succeed_mem, readBytes_afterDecfb_first ks rd s hm, hblock, htagOffset,
      readBytes_afterDecfb_past ks rd s _ (by omega), htag]
    exact hmac
  · rw [succeed_mem, readBytes_afterDecfb_first ks rd s hm, hblock]
    exact hstrip

/-- Settles O27: the sender's ciphertext is its own inverse under the receiver's key and counter, so DECFB and DECVF
recover the frame the tag is over. -/
theorem sentFrameIsReceived : Obligations.SentFrameIsReceived := by
  intro p rda wra rdb wrb wrb1 seq a a' b padlen hcross hma hmb hvalid hsize hpadlen hlow hfits henc hok hwrb hinside
    hwrb1 hinside1 hbuffer
  obtain ⟨hkeo, hkmo, hctro⟩ := hcross
  obtain ⟨T, C, hmac, hT, hcrypt, houtput, hkeo', hkmo'⟩ := enc_ok_output hma henc hok
  have hC : C.length = windowSize rda wra := by
    rw [(ctrCrypt_done hcrypt).1, Memory.length_readBytes]
  have hbyte : ((a.mem.readBytes rda.toNat (windowSize rda wra)).getD 4 0#8).toNat = padlen := by
    rw [hpadlen, ← a.mem.getD_readBytes_append rda.toNat (by omega : 4 < windowSize rda wra) [] 0#8, List.append_nil]
  have hstrip := stripPadding_of_fits hbyte hlow (by rw [Memory.length_readBytes]; omega)
  rw [Memory.length_readBytes] at hstrip
  have hdecrypts := ctrCryptIsItsOwnInverse _ _ _ _ _ hcrypt
  rw [hkeo, hctro] at hdecrypts
  rw [hkmo] at hmac
  rw [← hC] at hwrb hbuffer houtput
  obtain ⟨ks, hdecfb, hdecvf⟩ := received_frame hmb hvalid (by omega) hT hwrb hinside hwrb1 hinside1
    (hbuffer.trans houtput) hdecrypts hmac hstrip
  exact ⟨_, _, hdecfb, rfl, hdecvf, rfl, rfl, hkeo'.trans hkeo, hkmo'.trans hkmo, rfl⟩

end Sys2Proof.Machine

/-! ## What the fields of a descriptor say of its command (30_encoding.md R71 to R75) -/

namespace Sys2Proof

theorem toNat_field32 {d : List Byte} {i : Nat} (h : i + 4 ≤ d.length) :
    (field32 d i).toNat = be (slice d i (i + 4)) := by
  rw [← be_be32, be32_field32 d h]

theorem Instr.opcode_bounds (i : Instr) : 1 ≤ i.opcode ∧ i.opcode ≤ 5 := by
  cases i <;> simp [Instr.opcode]

end Sys2Proof

/-! ## The sequencer's failures and the idle engine (60_exceptions.md R158, R159, R170) -/

namespace Sys2Proof.Machine

/-- Settles O9: a step takes an input, and there is none. -/
theorem idleEngineHoldsItsState : Obligations.IdleEngineHoldsItsState := by
  intro s hidle
  simp only [step, stepInput, hidle]

/-- Settles O17: a well-formed window passes the sequencer's check, and `VALID` is tested next. -/
theorem uninitialisedEngineAnswersNotInitialized : Obligations.UninitialisedEngineAnswersNotInitialized := by
  intro rd wr seq s hordered hinside hvalid
  have hfails (i : Instr) (hinit : ∀ rd wr, i ≠ .init rd wr) (hrd : i.rd = rd) (hwr : i.wr = wr) :
      exec i s = .next (s.fail wr .notInitialized) := by
    have hwindow : i.wellFormed s.cap = true := (wellFormed_iff _ _).mpr ⟨by rwa [hrd, hwr], by rwa [hwr]⟩
    rw [exec_of_uninitialised hvalid hinit, if_pos hwindow, hwr]
  exact ⟨hfails _ nofun rfl rfl, hfails _ nofun rfl rfl, hfails _ nofun rfl rfl, hfails _ nofun rfl rfl⟩

/-- The sequencer's window check reads the two window fields of the descriptor that spells the command (R75). -/
theorem wellFormed_iff_of_spells {d : List Byte} {i : Instr} (h : Spells d i) (cap : Nat) :
    i.wellFormed cap = true ↔ be (slice d 8 12) ≤ be (slice d 12 16) ∧ be (slice d 12 16) ≤ cap := by
  have hlen := h.length
  rw [wellFormed_iff, ← h.rd, ← h.wr, fieldRd, fieldWr, toNat_field32 (by omega), toNat_field32 (by omega)]

theorem step_of_undecodable {s : State} {d : Bytes 16} {rest : List HostInput} {e : DecodeRefusal}
    (hin : s.inputs = .command d :: rest) (hdecode : decode d.toList = .error e) :
    step s = .next (({ s with inputs := rest } : State).fail (fieldWr d.toList) .illegalCommand) := by
  simp only [step, stepInput, hin, runInput, runDescriptor, hdecode]

/-- Settles O6: either the decoder refuses the descriptor, or it spells a command, whose `OP` and `RSV` are in order, so
that the sequencer turns its window away. -/
theorem malformedDescriptorIsIllegalCommand : Obligations.MalformedDescriptorIsIllegalCommand := by
  intro s d rest hin hmalformed
  cases hdecode : decode d.toList with
  | error e => exact ⟨_, step_of_undecodable hin hdecode⟩
  | ok i =>
    have hspells : Spells d.toList i := decode_eq_ok_iff.mp hdecode
    have hwindow : i.wellFormed s.cap = false := by
      rw [Bool.eq_false_iff, ne_eq, wellFormed_iff_of_spells hspells]
      exact fun hwindow => hmalformed ⟨hspells.op ▸ i.opcode_bounds, hspells.rsv, hwindow⟩
    refine ⟨i.wr, ?_⟩
    rw [stepRunsTheDecodedCommand s d rest i hin hdecode]
    exact exec_of_malformed (s := { s with inputs := rest }) hwindow

/-! ### The entry checks of each command (R151, R152) -/

/-- A rule that fails before its first write fails the command, where its window is well-formed. -/
theorem sequence_of_raised (i : Instr) {rule : State → Completion} {s : State} {f : Failure}
    (hordered : i.rd.toNat ≤ i.wr.toNat) (hinside : i.wr.toNat ≤ s.cap) (hrule : rule s = .raised s f) :
    s.sequence i rule = s.fail i.wr f := by
  rw [sequence_of_wellFormed ((wellFormed_iff _ _).mpr ⟨hordered, hinside⟩), hrule]
  rfl

/-- INIT reports a bad key block, mid-packet too (R151, R152, log 12). -/
theorem exec_init_of_keys_error {rd wr : BitVec 32} {s : State} {f : Failure} (hordered : rd.toNat ≤ wr.toNat)
    (hinside : wr.toNat ≤ s.cap) (hkeys : windowKeys rd wr s = .error f) :
    exec (.init rd wr) s = .next (s.fail wr f) := by
  have hmid : ¬ replacesMidPacket (.init rd wr) s = true := by
    rw [replacesMidPacket_iff]
    rintro ⟨-, -, -, -, k, hholds⟩
    exact nomatch hkeys.symm.trans (windowKeys_ok_iff.mpr hholds)
  have hrule : initRule rd wr s = .raised s f := by simp only [initRule, hkeys]
  exact (if_neg hmid).trans (congrArg _ (sequence_of_raised (.init rd wr) hordered hinside hrule))

theorem exec_rekey_of_keys_error {rd wr : BitVec 32} {s : State} {f : Failure} (hordered : rd.toNat ≤ wr.toNat)
    (hinside : wr.toNat ≤ s.cap) (hvalid : s.valid = true) (hkeys : windowKeys rd wr s = .error f) :
    exec (.rekey rd wr) s = .next (s.fail wr f) :=
  (initOnInitialisedEngineIsRekey rd wr s hvalid).symm.trans (exec_init_of_keys_error hordered hinside hkeys)

theorem windowKeys_of_not_wellSized {rd wr : BitVec 32} {s : State} {k : KeyMaterial} (hexpr : k.Expressible)
    (hholds : s.Holds rd wr k) (hsize : ¬ k.WellSized) : windowKeys rd wr s = .error .invalidKeySize := by
  rw [windowKeys, parseKeys_of_block hholds hexpr]
  exact validateKeys_of_not_wellSized hsize

/-- A window that holds no key block does not parse. -/
theorem windowKeys_of_not_holds {rd wr : BitVec 32} {s : State}
    (hnone : ¬ ∃ k : KeyMaterial, k.Expressible ∧ s.Holds rd wr k) : windowKeys rd wr s = .error .argumentError := by
  unfold windowKeys
  cases hparse : parseKeys s.mem rd.toNat (windowSize rd wr) with
  | error f => rw [parseKeys_error hparse]
  | ok k =>
    obtain ⟨hholds, hexpr⟩ := block_of_parseKeys hparse
    exact absurd ⟨k, hexpr, hholds⟩ hnone

/-- Settles O15: the window parses, and one length fails the validation. -/
theorem wrongKeyLengthIsInvalidKeySize : Obligations.WrongKeyLengthIsInvalidKeySize := by
  intro rd wr s k hordered hinside hexpr hholds hsize
  have hkeys := windowKeys_of_not_wellSized hexpr hholds hsize
  exact ⟨exec_init_of_keys_error hordered hinside hkeys,
    fun hvalid => exec_rekey_of_keys_error hordered hinside hvalid hkeys⟩

/-- On an initialised engine the check after that of `VALID` decides. -/
theorem check_after_valid {P : Prop} [Decidable P] {s : State} {a b c : Completion} (hvalid : s.valid = true) (hP : P) :
    (if s.valid = false then a else if P then b else c) = b :=
  (if_neg (by rw [hvalid]; nofun)).trans (if_pos hP)

/-- Settles O16: for the key commands no key block is parsed; for the others the size is tested right after `VALID`. -/
theorem tooSmallWindowIsArgumentError : Obligations.TooSmallWindowIsArgumentError := by
  intro rd wr seq s hordered hinside argumentError
  refine ⟨fun hnone => ?_, fun hvalid hnone => ?_, fun hvalid hsmall => ?_, fun hvalid hsmall => ?_,
    fun hvalid hroom => ?_⟩
  · exact exec_init_of_keys_error hordered hinside (windowKeys_of_not_holds hnone)
  · exact exec_rekey_of_keys_error hordered hinside hvalid (windowKeys_of_not_holds hnone)
  · exact congrArg _ (sequence_of_raised (rule := decfbRule Config.primitives rd wr) (.decfb rd wr) hordered hinside
      (check_after_valid hvalid hsmall))
  · exact congrArg _ (sequence_of_raised (rule := decvfRule Config.primitives rd wr seq) (.decvf rd wr seq) hordered
      hinside (check_after_valid hvalid hsmall))
  · exact congrArg _ (sequence_of_raised (rule := encRule Config.primitives rd wr seq) (.enc rd wr seq) hordered
      hinside (check_after_valid hvalid hroom))

end Sys2Proof.Machine

/-! ## What a failing command has changed (60_exceptions.md R161) -/

namespace Sys2Proof.Machine

open Sys2Proof.Config (Primitives)

/-- A verification that fails has latched its failure: of `MAC`, of the tag comparison, or of the padding stripper. -/
theorem finish_decvfVerify_failed {p : Primitives} {wr seq : BitVec 32} {P T : List Byte} {s : State}
    (h : ((decvfVerify p wr seq P T s).finish wr).status ≠ 0x00#8) :
    ∃ f, ((∃ info, f = .primitiveFailure info) ∨ f = .tagMismatch ∨ f = .insufficientPadding ∨ f = .excessPadding) ∧
      (decvfVerify p wr seq P T s).finish wr = s.fail wr f := by
  rcases decvfVerify_cases p wr seq P T s with
    ⟨info, -, hend⟩ | ⟨X, -, ⟨-, hend⟩ | ⟨f, -, hstrip, hend⟩ | ⟨payload, -, -, hend⟩⟩
  · exact ⟨_, .inl ⟨info, rfl⟩, congrArg _ hend⟩
  · exact ⟨_, .inr (.inl rfl), congrArg _ hend⟩
  · exact ⟨f, .inr (.inr (stripPadding_error hstrip)), congrArg _ hend⟩
  · rw [hend] at h
    exact absurd rfl h

/-- How DECVF fails: at its entry with nothing changed; by a primitive, with `CTRI` after the blocks that did succeed;
or over the whole frame, with `CTRI` after all its blocks (R108). -/
inductive DecvfFailure (rd wr : BitVec 32) (s : State) : State → Prop where
  | atEntry (f : Failure) (hf : f = .illegalCommand ∨ f = .notInitialized ∨ f = .argumentError) :
      DecvfFailure rd wr s (s.fail wr f)
  | byPrimitive (info : List Byte) (j : Nat) (hj : j ≤ (windowSize rd wr - 48) / 16) :
      DecvfFailure rd wr s ((afterDecvf (ctrAdd s.ctri j) s).fail wr (.primitiveFailure info))
  | overFrame (f : Failure) (hf : f = .tagMismatch ∨ f = .insufficientPadding ∨ f = .excessPadding) :
      DecvfFailure rd wr s ((afterDecvf (ctrAdd s.ctri ((windowSize rd wr - 48) / 16)) s).fail wr f)

theorem decvfFailure_of_execUnder {p : Primitives} {rd wr seq : BitVec 32} {s t : State}
    (h : execUnder p (.decvf rd wr seq) s = .next t) (hstatus : t.status ≠ 0x00#8) : DecvfFailure rd wr s t := by
  rcases decvfUnder_cases p rd wr seq s with
    ⟨f, hentry, hend⟩ | ⟨-, -, -, -, ⟨info, c, hcrypt, hend⟩ | ⟨rest, c, hcrypt, hend⟩⟩
  · cases hend.symm.trans h
    exact .atEntry f (hentry.imp And.left (Or.imp And.left And.left))
  · cases hend.symm.trans h
    obtain ⟨-, j, hj, rfl⟩ := ctrCrypt_failed hcrypt
    rw [Memory.length_readBytes] at hj
    exact .byPrimitive info j hj
  · cases hend.symm.trans h
    obtain ⟨-, rfl⟩ := ctrCrypt_done hcrypt
    rw [Memory.length_readBytes] at hstatus ⊢
    obtain ⟨f, ⟨info, rfl⟩ | hf, hfail⟩ := finish_decvfVerify_failed hstatus
    · rw [hfail]
      exact .byPrimitive info _ le_rfl
    · rw [hfail]
      exact .overFrame f hf

/-- The row of DECVF in the table of R161, by the code that the failure hands back. -/
theorem DecvfFailure.changes {rd wr : BitVec 32} {s t : State} (h : DecvfFailure rd wr s t) :
    (t.status = 0x02#8 ∨ t.status = 0x08#8 ∨ t.status = 0x09#8 → t.ctri = s.ctri ∧ t.phase = s.phase) ∧
    (t.status = 0x03#8 ∨ t.status = 0x04#8 ∨ t.status = 0x05#8 →
      t.phase = .idle ∧ t.ctri = ctrAdd s.ctri ((windowSize rd wr - 48) / 16)) ∧
    (t.status = 0x06#8 → t.phase = .idle ∧
      ∃ j, j ≤ (windowSize rd wr - 48) / 16 ∧ t.ctri = ctrAdd s.ctri j) ∧
    t.status ≠ 0x01#8 ∧ t.status ≠ 0x07#8 := by
  cases h with
  | atEntry f hf => rcases hf with rfl | rfl | rfl <;> simp [Failure.code]
  | byPrimitive info j hj =>
    refine ⟨?_, ?_, fun _ => ⟨rfl, j, hj, rfl⟩, ?_⟩
    all_goals simp [Failure.code]
  | overFrame f hf =>
    refine ⟨?_, fun _ => ⟨rfl, rfl⟩, ?_, ?_⟩
    all_goals rcases hf with rfl | rfl | rfl <;> simp [Failure.code]

/-- A failing command has changed nothing outside `CTRI`, `PHASE`, `STATUS` and the record, and hands back its code. -/
theorem failed_frame {p : Primitives} {i : Instr} {s t : State} (h : execUnder p i s = .next t)
    (hstatus : t.status ≠ 0x00#8) :
    t = { s with ctri := t.ctri, phase := t.phase, status := t.status, result := t.result } ∧
    (∃ info, t.result = some ⟨t.status, i.wr, [], info⟩) ∧
    ((∀ rd wr seq, i ≠ .decvf rd wr seq) → t.ctri = s.ctri ∧ t.phase = s.phase) := by
  cases i with
  | decvf rd wr seq =>
    cases decvfFailure_of_execUnder h hstatus with
    | atEntry | byPrimitive | overFrame => exact ⟨rfl, ⟨_, rfl⟩, fun hother => absurd rfl (hother rd wr seq)⟩
  | init | rekey | decfb | enc =>
    cases effect_of_execUnder h with
    | failed => exact ⟨rfl, ⟨_, rfl⟩, fun _ => ⟨rfl, rfl⟩⟩
    | _ => exact absurd rfl hstatus

/-- Settles O29: the frame of every failure, and for DECVF the way it failed. -/
theorem failureChangesOnlyWhatTheTableSays : Obligations.FailureChangesOnlyWhatTheTableSays := by
  intro p i s t hexec hstatus
  obtain ⟨hframe, hresult, hother⟩ := failed_frame hexec hstatus
  refine ⟨hframe, hresult, hother, ?_⟩
  rintro rd wr seq rfl
  exact (decvfFailure_of_execUnder hexec hstatus).changes

end Sys2Proof.Machine

/-! ## The two directions commute (60_exceptions.md R168, 70_reset_and_hazards.md R193) -/

namespace Sys2Proof.Machine

open Sys2Proof.Config (Primitives)

/-- The two inbound commands (R168). -/
inductive Inbound : Instr → Prop where
  | decfb (rd wr : BitVec 32) : Inbound (.decfb rd wr)
  | decvf (rd wr seq : BitVec 32) : Inbound (.decvf rd wr seq)

/-! ### What each direction writes -/

/-- A command keeps the buffer space canonical. -/
theorem Effect.wf_mem {i : Instr} {s t : State} (h : Effect s i t) (hm : s.mem.wf = true) : t.mem.wf = true := by
  cases h with
  | failed | loaded | rekeyed | consumed => exact hm
  | peeked rd wr ks => exact Memory.wf_writeBytes hm _ _
  | sent rd wr seq C T c => exact Memory.wf_writeBytes (Memory.wf_writeBytes hm _ _) _ _

/-- An inbound command writes the inbound registers, `PHASE`, the buffer space and the record. -/
theorem Effect.of_inbound {i : Instr} {s t : State} (h : Effect s i t) (hi : Inbound i) :
    t = (({ s with mem := t.mem } : State).withInbound t.kei t.kmi t.ctri t.phase).withRecord t.status t.result := by
  cases hi with
  | decfb | decvf => cases h <;> rfl

/-- ENC writes the outbound registers, the buffer space and the record. -/
theorem Effect.of_enc {rd wr seq : BitVec 32} {s t : State} (h : Effect s (.enc rd wr seq) t) :
    t = (({ s with mem := t.mem } : State).withOutbound t.keo t.kmo t.ctro).withRecord t.status t.result := by
  cases h with
  | failed | sent => rfl

/-- An inbound command stores in its window only (R52). -/
theorem inbound_read_outside {p : Primitives} {i : Instr} {s t : State} (hi : Inbound i)
    (h : execUnder p i s = .next t) {a : Nat} (ha : ¬ InWindow i.rd i.wr a) : t.mem.read a = s.mem.read a := by
  cases hi with
  | decfb rd wr =>
    rcases decfbUnder_cases p rd wr s with ⟨f, -, hend⟩ | ⟨ks, -, -, hsize, -, -, hend⟩
    · cases hend.symm.trans h
      rfl
    · cases hend.symm.trans h
      refine read_afterDecfb_outside ks rd s fun hblock => ha ⟨hblock.1, ?_⟩
      have hend : rd.toNat + 16 ≤ wr.toNat := by
        unfold windowSize at hsize
        omega
      exact hblock.2.trans_le hend
  | decvf rd wr seq => exact commandsStoreOnlyWhereTheyMay p _ s t h a (fun hstores => hstores)

/-! ### A command after one of the other direction -/

/-- A run that ends as `w` does, changed by an `f` that keeps the memory, ends as `t` does but for memory and `f`. -/
theorem SameEffect.after {m0 m0' : Memory} {t w v : State} {f : State → State} (h : SameEffect m0 m0' t w)
    (hv : v = f w) (hf : (f w).mem = w.mem) :
    v = f { t with mem := v.mem } ∧ StoredAlike m0 m0' t.mem v.mem := by
  have hmem : v.mem = w.mem := (congrArg State.mem hv).trans hf
  have hw : w = { t with mem := w.mem } := by rw [h.fields]
  rw [hmem, ← hw]
  exact ⟨hv, h.stores⟩

section
variable {rule : State → Completion} {s u : State} (i : Instr)
  (hreads : SameEnd s.mem u.mem (rule s) (rule { s with mem := u.mem }))
include hreads

/-- After a command that wrote the outbound registers and the memory, one that ignores those registers does as it would
without it on the memory it finds. -/
theorem IgnoresOutbound.sequence_after (h : IgnoresOutbound rule)
    (hu : u = (({ s with mem := u.mem } : State).withOutbound u.keo u.kmo u.ctro).withRecord u.status u.result) :
    u.sequence i rule =
      ({ s.sequence i rule with mem := (u.sequence i rule).mem } : State).withOutbound u.keo u.kmo u.ctro ∧
    StoredAlike s.mem u.mem (s.sequence i rule).mem (u.sequence i rule).mem :=
  (hreads.sequence i).after (f := State.withOutbound u.keo u.kmo u.ctro)
    ((congrArg (State.sequence i rule) hu).trans (h.sequence _ _ _ _ _ i _)) rfl

/-- As `IgnoresOutbound.sequence_after`, of the inbound registers and `PHASE`. -/
theorem IgnoresInbound.sequence_after (h : IgnoresInbound rule)
    (hu : u =
      (({ s with mem := u.mem } : State).withInbound u.kei u.kmi u.ctri u.phase).withRecord u.status u.result) :
    u.sequence i rule =
      ({ s.sequence i rule with mem := (u.sequence i rule).mem } : State).withInbound u.kei u.kmi u.ctri u.phase ∧
    StoredAlike s.mem u.mem (s.sequence i rule).mem (u.sequence i rule).mem :=
  (hreads.sequence i).after (f := State.withInbound u.kei u.kmi u.ctri u.phase)
    ((congrArg (State.sequence i rule) hu).trans (h.sequence _ _ _ _ _ _ i _)) rfl

end

/-- An inbound command after an ENC, of which it sees the memory only. -/
theorem inbound_after {p : Primitives} {i : Instr} {s t u : State} (hi : Inbound i)
    (h : execUnder p i s = .next t) (hwindow : AgreeOnWindow i.rd i.wr s.mem u.mem)
    (hu : u = (({ s with mem := u.mem } : State).withOutbound u.keo u.kmo u.ctro).withRecord u.status u.result) :
    ∃ v, execUnder p i u = .next v ∧
      v = ({ t with mem := v.mem } : State).withOutbound u.keo u.kmo u.ctro ∧ StoredAlike s.mem u.mem t.mem v.mem := by
  cases hi with
  | decfb rd wr =>
    cases h
    exact ⟨_, rfl, (decfbRule_ignoresOutbound p rd wr).sequence_after _ (decfbRule_sameEnd hwindow p) hu⟩
  | decvf rd wr seq =>
    cases h
    exact ⟨_, rfl, (decvfRule_ignoresOutbound p rd wr seq).sequence_after _ (decvfRule_sameEnd hwindow p seq) hu⟩

/-- ENC after an inbound command, of which it sees the memory only. -/
theorem enc_after {p : Primitives} {rd wr seq : BitVec 32} {s t u : State}
    (h : execUnder p (.enc rd wr seq) s = .next t) (hwindow : AgreeOnWindow rd wr s.mem u.mem)
    (hu : u =
      (({ s with mem := u.mem } : State).withInbound u.kei u.kmi u.ctri u.phase).withRecord u.status u.result) :
    ∃ v, execUnder p (.enc rd wr seq) u = .next v ∧
      v = ({ t with mem := v.mem } : State).withInbound u.kei u.kmi u.ctri u.phase ∧
      StoredAlike s.mem u.mem t.mem v.mem := by
  cases h
  exact ⟨_, rfl, (encRule_ignoresInbound p rd wr seq).sequence_after _ (encRule_sameEnd hwindow p seq) hu⟩

/-! ### Both orders -/

/-- `m'` differs from `m` at offsets of `A` only. -/
def ChangedOnlyIn (A : Nat → Prop) (m m' : Memory) : Prop := ∀ a, ¬ A a → m'.read a = m.read a

/-- Two commands from memory `m`, one storing in `A` and giving `m1`, one storing in `B` and giving `m2`: where the two
sets share no offset and each command stores after the other what it stores first, the order makes no difference. -/
theorem mem_eq_of_apart {m m1 m2 m12 m21 : Memory} {A B : Nat → Prop} (hapart : ∀ a, A a → ¬ B a)
    (hwf12 : m12.wf = true) (hwf21 : m21.wf = true) (h1 : ChangedOnlyIn A m m1) (h21 : ChangedOnlyIn A m2 m21)
    (h2 : ChangedOnlyIn B m m2) (h12 : ChangedOnlyIn B m1 m12) (hafter1 : StoredAlike m m1 m2 m12)
    (hafter2 : StoredAlike m m2 m1 m21) : m12 = m21 := by
  refine Memory.ext_of_read hwf12 hwf21 fun a => ?_
  by_cases hA : A a
  · have hB : ¬ B a := hapart a hA
    rcases hafter2 a with halike | ⟨hkept1, hkept2⟩
    · exact (h12 a hB).trans halike
    · rw [h12 a hB, hkept1, hkept2, h2 a hB]
  · rcases hafter1 a with halike | ⟨hkept2, hkept1⟩
    · exact halike.symm.trans (h21 a hA).symm
    · rw [hkept1, h1 a hA, h21 a hA, hkept2]

/-- Two commands of the two directions end in either order in one state but for the record of the later one. -/
theorem inbound_enc_commute (p : Primitives) {i : Instr} {rd wr : BitVec 32} (seq : BitVec 32) {s : State}
    (hi : Inbound i) (hm : s.mem.wf = true) (hapart : WindowsApart i.rd i.wr rd wr) :
    ∃ s1 s12 s2 s21, execUnder p i s = .next s1 ∧ execUnder p (.enc rd wr seq) s1 = .next s12 ∧
      execUnder p (.enc rd wr seq) s = .next s2 ∧ execUnder p i s2 = .next s21 ∧
      s12.result = s2.result ∧ s21.result = s1.result ∧
      s12 = { s21 with status := s12.status, result := s12.result } := by
  obtain ⟨s1, h1⟩ : ∃ s1, execUnder p i s = .next s1 := by cases hi <;> exact ⟨_, rfl⟩
  obtain ⟨s2, h2⟩ : ∃ s2, execUnder p (.enc rd wr seq) s = .next s2 := ⟨_, rfl⟩
  have he1 := effect_of_execUnder h1
  have he2 := effect_of_execUnder h2
  have hs1 := he1.of_inbound hi
  have hs2 := he2.of_enc
  have hwindow1 : AgreeOnWindow rd wr s.mem s1.mem :=
    ⟨hm, he1.wf_mem hm, fun a ha => inbound_read_outside hi h1
      fun hin => hapart a hin ⟨ha.1, Nat.lt_add_right 32 ha.2⟩⟩
  have hwindow2 : AgreeOnWindow i.rd i.wr s.mem s2.mem :=
    ⟨hm, he2.wf_mem hm, fun a ha => encUnder_read_outside h2 (hapart a ha)⟩
  obtain ⟨s12, h12, hs12, hstores12⟩ := enc_after h2 hwindow1 hs1
  obtain ⟨s21, h21, hs21, hstores21⟩ := inbound_after hi h1 hwindow2 hs2
  have hmem : s12.mem = s21.mem :=
    mem_eq_of_apart hapart ((effect_of_execUnder h12).wf_mem hwindow1.canonical')
      ((effect_of_execUnder h21).wf_mem hwindow2.canonical')
      (fun a => inbound_read_outside hi h1) (fun a => inbound_read_outside hi h21)
      (fun a => encUnder_read_outside h2) (fun a => encUnder_read_outside h12) hstores12 hstores21
  refine ⟨s1, s12, s2, s21, h1, h12, h2, h21, ?_, ?_, ?_⟩
  · rw [hs12]
    rfl
  · rw [hs21]
    rfl
  · calc s12 = ({ s2 with mem := s21.mem } : State).withInbound s1.kei s1.kmi s1.ctri s1.phase := by rwa [hmem] at hs12
      _ = (({ s1 with mem := s21.mem } : State).withOutbound s2.keo s2.kmo s2.ctro).withRecord s2.status s2.result := by
        rw [hs1, hs2]
        rfl
      _ = s21.withRecord s12.status s12.result := by
        rw [hs12, ← hs21]
        rfl

/-- Settles O39: the commutation under any primitives, at the engine's own. -/
theorem directionsCommute : Obligations.DirectionsCommute := by
  intro i rd wr seq s hm hi hapart
  have hinbound : Inbound i := by
    rcases hi with hi | ⟨q, hi⟩
    · exact hi ▸ .decfb _ _
    · exact hi ▸ .decvf _ _ q
  have hengine : execUnder Config.primitives = exec := funext₂ fun i s => (execUsesTheEnginesPrimitives i s).symm
  exact hengine ▸ inbound_enc_commute Config.primitives seq hinbound hm hapart

end Sys2Proof.Machine

/-! ## The counter that ENC leaves (70_reset_and_hazards.md R187) -/

namespace Sys2Proof.Machine

open Sys2Proof.Config (Primitives)

/-- Increments of one counter meet again only a whole number of rounds apart (R132). -/
theorem ctrAdd_eq_ctrAdd_iff {n : Nat} (c : Bytes n) (j k : Nat) : ctrAdd c j = ctrAdd c k ↔ j ≡ k [MOD 256 ^ n] := by
  constructor
  · intro h
    have hvalue : be c.toList + j ≡ be c.toList + k [MOD 256 ^ n] := by
      rw [Nat.ModEq, ← be_ctrAdd, ← be_ctrAdd, h]
    exact Nat.ModEq.add_left_cancel' _ hvalue
  · intro h
    apply bytes_eq_of_be_eq
    rw [be_ctrAdd, be_ctrAdd]
    exact h.add_left _

/-- Within one round an increment further on is a new value. -/
theorem ctrAdd_ne_of_lt {n j k : Nat} (c : Bytes n) (hjk : j < k) (hk : k < 256 ^ n) : ctrAdd c k ≠ ctrAdd c j :=
  fun h => hjk.ne' (((ctrAdd_eq_ctrAdd_iff c k j).mp h).eq_of_lt_of_lt hk (hjk.trans hk))

theorem windowSize_lt (rd wr : BitVec 32) : windowSize rd wr < 2 ^ 32 := (Nat.sub_le _ _).trans_lt wr.isLt

/-- A successful ENC has advanced `CTRO` by the full blocks of its window; a tail adds nothing (R134). -/
theorem ctro_of_enc_ok {p : Primitives} {rd wr seq : BitVec 32} {s t : State}
    (h : execUnder p (.enc rd wr seq) s = .next t) (hstatus : t.status = 0x00#8) :
    t.ctro = ctrAdd s.ctro (windowSize rd wr / 16) := by
  rcases encUnder_cases p rd wr seq s with ⟨f, -, hend⟩ | ⟨T, C, c, -, -, hcrypt, -, -, -, hend⟩
  · cases hend.symm.trans h
    exact absurd hstatus f.code_ne_statusOk
  · obtain ⟨-, hc⟩ := ctrCrypt_done hcrypt
    rw [Memory.length_readBytes] at hc
    cases hend.symm.trans h
    exact hc

/-- Settles O28: a window has fewer blocks than a round has counter values, so the counter past its full blocks is new
unless a tail used it. -/
theorem onlyWholeBlockFramesLeaveAFreshCounter : Obligations.OnlyWholeBlockFramesLeaveAFreshCounter := by
  intro p rd wr seq s t hexec hstatus
  have hctro := ctro_of_enc_ok hexec hstatus
  refine ⟨fun hwhole j hj => ?_, fun htail => ⟨?_, hctro⟩⟩
  · have hused : j < windowSize rd wr / 16 := by
      unfold BlockMultiple at hwhole
      omega
    have hround : windowSize rd wr / 16 < 256 ^ 16 := by
      have hsize := windowSize_lt rd wr
      omega
    rw [hctro]
    exact ctrAdd_ne_of_lt s.ctro hused hround
  · unfold BlockMultiple at htail
    omega

end Sys2Proof.Machine
